-- ==== Sys2Proof/Word.lean ====
section
/-! DEFINITION. The bit-vector types of the machine: what the spec itself treats as a value of fixed width (R5, R8). -/

namespace Sys2Proof

/-- A byte of memory or of the program (R16). -/
abbrev Byte := BitVec 8

/-- A general register's value, and the word every data access moves (R10, R26). -/
abbrev Word := BitVec 32

/-- A register-number field: 6 bits, so that every value names one of the 64 registers (R10). -/
abbrev RegNum := BitVec 6

/-- The opcode, bits [2:0] of an instruction's first byte (R36). -/
abbrev Opcode := BitVec 3

/-- The `const_val` field of LoadConst (R37). -/
abbrev ConstVal := BitVec 29

/-- The `mem_addr` field of ReadMem and WriteMem: a byte address (R38, R39). -/
abbrev MemAddr := BitVec 17

/-- An `offset_b` or `offset_c` field of Popcnt: an unsigned byte offset (R40). -/
abbrev Offset := BitVec 7

/-- The program counter and `CODE_SIZE`: 21 bits, holding 0 to 2^20 (R12, R13).
UNVERIFIED, safe (log 9): the width is the spec's decision D9. -/
abbrev CodePos := BitVec 21

end Sys2Proof
end

