-- ==== Sys2Proof/Config.lean ====
section
/-! DEFINITION. The parameters of the hardware (R5), each named once. All are fixed by the spec; none is left to an
implementation, and the spec leaves no value free, so there is no opaque constant here.
UNVERIFIED, unsafe (log 16): the spec says its source's numeric literals are unaudited (U12). -/

namespace Sys2Proof.Config

/-- `NREGS`, the number of general registers (R5, R10). -/
abbrev nRegs : Nat := 64

/-- `MEM_SIZE`, the number of bytes of memory (R5, R16). -/
@[simp] abbrev memSize : Nat := 1048576

/-- `WORD_BYTES`, the bytes every data access moves (R5, R26). -/
@[simp] abbrev wordBytes : Nat := 4

/-- `LEN_LOADCONST` (R5, R35). -/
@[simp] abbrev lenLoadconst : Nat := 5

/-- `LEN_OTHER` (R5, R35). -/
@[simp] abbrev lenOther : Nat := 4

/-- The longest instruction, in bytes (R35). -/
@[simp] abbrev maxLength : Nat := 5

/-- `OP_POPCNT` (R5, R43). -/
@[simp] abbrev opPopcnt : Opcode := 2#3

/-- `OP_LOADCONST` (R5, R43). -/
@[simp] abbrev opLoadconst : Opcode := 3#3

/-- `OP_READMEM` (R5, R43). -/
@[simp] abbrev opReadmem : Opcode := 5#3

/-- `OP_WRITEMEM` (R5, R43). -/
@[simp] abbrev opWritemem : Opcode := 6#3

/-- What a byte of memory that nothing has written reads as: 0, the spec's own reset value (R16, R85). -/
@[simp] abbrev unlistedByte : Byte := 0#8

end Sys2Proof.Config
end

