-- ==== Sys2Proof/Machine/State.lean ====
section
/-! DEFINITION. The Machine State (R9) as plain data, its enumerations, and the state after reset (R85). -/

namespace Sys2Proof.Machine

/-- `STATUS` (R14). Its numeric codes are `Status.code` in Ops.lean. -/
inductive Status where
  /-- The next step will try to fetch at `pc`. -/
  | running
  /-- The run ended normally. -/
  | halted
  /-- The run was aborted by a fatal error. -/
  | faulted
  deriving DecidableEq, Repr

/-- Whether an access is a read or a write: the one bit that `MemoryBoundsError` records (R15, R73). -/
inductive AccessKind where
  | read
  | write
  deriving DecidableEq, Repr

/-- `FAULT_CAUSE` as a closed enumeration, which R76 allows. Its numeric codes are `FaultCause.code` in Ops.lean. -/
inductive FaultCause where
  /-- No fault, code 0. -/
  | none
  /-- `UnknownOpcodeError`, code 1. -/
  | unknownOpcode
  /-- `MemoryBoundsError`, code 2. -/
  | memoryBounds
  deriving DecidableEq, Repr

/-- `FAULT_INFO` (R15). DESIGN CHOICE, safe (log 4): a tagged value, because the spec gives its contents and no bit
layout; `zero` is the reset value 0. -/
inductive FaultInfo where
  /-- The reset value 0. -/
  | zero
  /-- Cause 1: the 3-bit opcode value that was found. -/
  | opcode (op : Opcode)
  /-- Cause 2: the faulting byte address, a non-negative integer of any size, and the kind of the access. -/
  | access (addr : Nat) (kind : AccessKind)
  deriving DecidableEq, Repr

/-- The two exceptions of the machine, the argument of `raise` (R8, R71). -/
inductive Exn where
  /-- `UnknownOpcodeError(op)` (R72). -/
  | unknownOpcode (op : Opcode)
  /-- `MemoryBoundsError(addr, kind)` (R73). -/
  | memoryBounds (addr : Nat) (kind : AccessKind)
  deriving DecidableEq, Repr

/-- Memory as (address, byte) pairs; the canonical form is `Memory.wf` in Ops.lean (log 15). -/
abbrev Memory := List Host.Cell

/-- The Machine State: exactly the list of R9. -/
structure State where
  /-- `x[0]` .. `x[63]` (R10). -/
  regs : Vector Word Config.nRegs
  /-- The program counter, a byte address (R12). -/
  pc : CodePos
  /-- `CODE_SIZE`, the number of program bytes (R13). -/
  codeSize : CodePos
  /-- `STATUS` (R14). -/
  status : Status
  /-- `FAULT_CAUSE` (R15). -/
  faultCause : FaultCause
  /-- `FAULT_INFO` (R15). -/
  faultInfo : FaultInfo
  /-- `MEM` (R16). -/
  mem : Memory
  deriving DecidableEq, Repr

/-- What stops the model with no next state. The machine's own fatal errors are not here: they are next states in status
Faulted (R79, log 3). -/
inductive Fault where
  /-- Raised by a step on a Running state whose `CODE_SIZE` exceeds 2^20, which R13 rules out; the spec defines `step` on
  well-formed states only (R19). DESIGN CHOICE, safe (log 10): no well-formed state meets it. -/
  | codeSizeOutOfRange
  deriving DecidableEq, Repr

/-- Why the model gives an instruction no meaning. -/
inductive Refusal where
  /-- Raised by an arm of exec whose instruction has no meaning yet; safe. Every instruction has one, so none is raised. -/
  | notModelled (mnemonic : String)
  deriving DecidableEq, Repr

/-- The one refusal of `loadProgram`: the program is longer than memory (R87). It is no `FAULT_CAUSE` and no step outcome. -/
inductive LoadError where
  | programTooLong
  deriving DecidableEq, Repr

/-- The machine right after reset: what `loadProgram` of the empty sequence returns (R85, D19, log 13). -/
def State.reset : State where
  regs := Vector.replicate Config.nRegs 0#32
  pc := 0#21
  codeSize := 0#21
  status := .running
  faultCause := .none
  faultInfo := .zero
  mem := []

end Sys2Proof.Machine
end

