-- ==== Sys2Proof/Machine/Flags.lean ====
section
/-! DEFINITION. Flags: there are none. The spec gives the machine no flag, condition code, carry, overflow bit or predicate
register, and no instruction sets or reads one (R17), so this file defines nothing. -/
end

