-- ==== Sys2Proof/Syntax.lean ====
section
/-! DEFINITION. The instructions: one constructor per row of spec/opcode_table.json (R43), the fields in the row's operand
order (R53), each a bit vector of its declared width (R37 to R41). -/

namespace Sys2Proof

/-- A decoded instruction. Every value a field can hold is legal (R41), so every term is well formed
(`Sys2Proof.Instr.wellFormed`); the range checks of the assembler stand in WellFormed.lean. -/
inductive Instr where
  /-- Copy the word at `x[regD] + offsetC` to `x[regE] + offsetB` (R68). Despite its name it counts no bits (C4, U10). -/
  | popcnt (offsetB offsetC : Offset) (regD regE : RegNum)
  /-- `x[reg]` receives `constVal`, zero-extended (R65). -/
  | loadconst (constVal : ConstVal) (reg : RegNum)
  /-- `x[reg]` receives the word at `memAddr` (R66). -/
  | readmem (memAddr : MemAddr) (reg : RegNum)
  /-- The word at `memAddr` receives `x[reg]` (R67). -/
  | writemem (reg : RegNum) (memAddr : MemAddr)
  deriving DecidableEq, Repr

end Sys2Proof
end

