-- ==== Sys2Proof/WellFormed.lean ====
section
/-! DEFINITION. Validation: the range checks that make an instruction out of unsigned integers (R41, R55). The widths of
`Instr`'s fields make the ranges hold of every decoded instruction; the checks bite on `RawInstr`, an instruction as the
assembler has it before validation. -/

namespace Sys2Proof

/-- An instruction whose operands are non-negative integers of any size: what an assembler line resolves to (R52). -/
inductive RawInstr where
  | popcnt (offsetB offsetC regD regE : Nat)
  | loadconst (constVal reg : Nat)
  | readmem (memAddr reg : Nat)
  | writemem (reg memAddr : Nat)
  deriving DecidableEq, Repr

/-- The ranges of the spec: register numbers in [0,63], `mem_addr` below 2^17, `const_val` below 2^29, offsets below 128
(R41, R55). -/
def RawInstr.wellFormed : RawInstr → Bool
  | .popcnt offsetB offsetC regD regE =>
    decide (offsetB < 128) && decide (offsetC < 128) && decide (regD < 64) && decide (regE < 64)
  | .loadconst constVal reg => decide (constVal < 2 ^ 29) && decide (reg < 64)
  | .readmem memAddr reg => decide (memAddr < 2 ^ 17) && decide (reg < 64)
  | .writemem reg memAddr => decide (reg < 64) && decide (memAddr < 2 ^ 17)

/-- The instruction's fields read as unsigned integers (R41). -/
def RawInstr.ofInstr : Instr → RawInstr
  | .popcnt offsetB offsetC regD regE => .popcnt offsetB.toNat offsetC.toNat regD.toNat regE.toNat
  | .loadconst constVal reg => .loadconst constVal.toNat reg.toNat
  | .readmem memAddr reg => .readmem memAddr.toNat reg.toNat
  | .writemem reg memAddr => .writemem reg.toNat memAddr.toNat

/-- Validation: the instruction when every field is in its range, nothing otherwise (R55). -/
def RawInstr.validate (raw : RawInstr) : Option Instr :=
  if raw.wellFormed then
    some (match raw with
      | .popcnt offsetB offsetC regD regE =>
        .popcnt (BitVec.ofNat 7 offsetB) (BitVec.ofNat 7 offsetC) (BitVec.ofNat 6 regD) (BitVec.ofNat 6 regE)
      | .loadconst constVal reg => .loadconst (BitVec.ofNat 29 constVal) (BitVec.ofNat 6 reg)
      | .readmem memAddr reg => .readmem (BitVec.ofNat 17 memAddr) (BitVec.ofNat 6 reg)
      | .writemem reg memAddr => .writemem (BitVec.ofNat 6 reg) (BitVec.ofNat 17 memAddr))
  else none

/-- An instruction is well formed when its fields are in the ranges of R41. -/
def Instr.wellFormed (i : Instr) : Bool := (RawInstr.ofInstr i).wellFormed

end Sys2Proof
end

