-- ==== Sys2Proof/Decode.lean ====
section
/-! DEFINITION. Byte order, the bit-field reader, the decoder (R35, R36, R46) and the packer (R47). -/

namespace Sys2Proof

/-! ### Byte order and bit fields -/

/-- The unsigned integer of a byte sequence, lowest address first (R21, R36). -/
def littleEndian : List Byte → Nat
  | [] => 0
  | b :: rest => b.toNat + 256 * littleEndian rest

/-- The low `n` bytes of an unsigned integer, least significant byte first: byte k is `v[8k+7 : 8k]` (R23, R47). -/
def toBytes : (n : Nat) → (v : Nat) → List Byte
  | 0, _ => []
  | n + 1, v => BitVec.ofNat 8 v :: toBytes n (v / 256)

/-- The field of `width` bits that starts at bit `lo` of the instruction word: shift right, then mask (R8, R41). -/
def field (w lo width : Nat) : BitVec width := BitVec.ofNat width (w >>> lo)

/-! ### The decoder -/

/-- What the decoder answers (R46). -/
inductive DecodeResult where
  /-- An instruction and the bytes it takes. -/
  | instruction (i : Instr) (bytesConsumed : Nat)
  /-- `TruncatedInstructionError`: fewer bytes remain than the opcode's length. -/
  | truncated
  /-- `UnknownOpcodeError`: the opcode found is 0, 1, 4 or 7. -/
  | unknownOpcode (op : Opcode)
  deriving DecidableEq, Repr

/-- The opcode, bits [2:0] of the first byte (R36). -/
def opcodeOf (firstByte : Byte) : Opcode := firstByte.extractLsb' 0 3

/-- The length that the opcode alone implies, for all eight values (R35). -/
def lengthOf (op : Opcode) : Nat := if op = Config.opLoadconst then Config.lenLoadconst else Config.lenOther

/-- The map from opcode and instruction word to instruction and fields: step 4 of R46, layouts R37 to R40.
UNVERIFIED, unsafe (log 8): the padding bits above the last field are ignored (R42, D8). -/
def decodeWord (op : Opcode) (w : Nat) : DecodeResult :=
  if op = Config.opLoadconst then .instruction (.loadconst (field w 3 29) (field w 32 6)) Config.lenLoadconst
  else if op = Config.opReadmem then .instruction (.readmem (field w 3 17) (field w 20 6)) Config.lenOther
  else if op = Config.opWritemem then .instruction (.writemem (field w 3 6) (field w 9 17)) Config.lenOther
  else if op = Config.opPopcnt then
    .instruction (.popcnt (field w 3 7) (field w 10 7) (field w 17 6) (field w 23 6)) Config.lenOther
  else .unknownOpcode op

/-- The decoder on the byte window that starts at the program counter (R46).
UNVERIFIED, unsafe (log 14): the length is tested before the opcode is mapped (C2, R78). The empty window, which the
engine never gives the decoder, counts as truncated. -/
def decode : List Byte → DecodeResult
  | [] => .truncated
  | b :: rest =>
    if (b :: rest).length < lengthOf (opcodeOf b) then .truncated
    else decodeWord (opcodeOf b) (littleEndian ((b :: rest).take (lengthOf (opcodeOf b))))

/-- `decodeOne(bytes, pc)`, the decoder's public contract (R7, R46). -/
def decodeOne (bytes : List Byte) (pc : Nat) : DecodeResult := decode (bytes.drop pc)

/-! ### The packer -/

/-- The instruction word that the packer builds (R47): the padding bits are 0 (R42). -/
def packWord : Instr → Nat
  | .loadconst constVal reg => 3 ||| constVal.toNat <<< 3 ||| reg.toNat <<< 32
  | .readmem memAddr reg => 5 ||| memAddr.toNat <<< 3 ||| reg.toNat <<< 20
  | .writemem reg memAddr => 6 ||| reg.toNat <<< 3 ||| memAddr.toNat <<< 9
  | .popcnt offsetB offsetC regD regE =>
    2 ||| offsetB.toNat <<< 3 ||| offsetC.toNat <<< 10 ||| regD.toNat <<< 17 ||| regE.toNat <<< 23

/-- The encoded length of an instruction (R5, R35). -/
def Instr.length : Instr → Nat
  | .loadconst _ _ => Config.lenLoadconst
  | .readmem _ _ => Config.lenOther
  | .writemem _ _ => Config.lenOther
  | .popcnt _ _ _ _ => Config.lenOther

/-- `pack(Instruction)`: the instruction word, serialised little-endian into the instruction's length (R47). -/
def encode (i : Instr) : List Byte := toBytes i.length (packWord i)

/-- The binary program format: a flat concatenation of packed instructions, nothing before, between or after (R50). -/
def packProgram (program : List Instr) : List Byte := program.flatMap encode

/-! ### The host's reading of a table row -/

/-- The bytes of an instruction given as a number with bit 0 the least significant bit of its first byte: the low `nbits`
bits of `w`, and zeros up to the longest instruction. -/
def tableBytes (nbits w : Nat) : List Byte := toBytes Config.maxLength (w % 2 ^ nbits)

/-- The instruction the decoder reads from those bytes, none where it refuses. -/
def decodeTableWord (nbits w : Nat) : Option Instr :=
  match decode (tableBytes nbits w) with
  | .instruction i _ => some i
  | .truncated => none
  | .unknownOpcode _ => none

end Sys2Proof
end

