-- ==== Sys2Proof/Machine/Ops.lean ====
section
/-! DEFINITION. The named operations over registers, memory and control state: the one place where registers and memory are
read and written, the fault entry (R79) and the halt (R60). There is no return from a fault (R80), so none stands here. -/

namespace Sys2Proof.Machine

/-! ### Numeric codes of the control registers -/

/-- The 2-bit code of `STATUS` (R14, D4). -/
def Status.code : Status → BitVec 2
  | .running => 0#2
  | .halted => 1#2
  | .faulted => 2#2

/-- The 2-bit code of `FAULT_CAUSE` (R76, D4). -/
def FaultCause.code : FaultCause → BitVec 2
  | .none => 0#2
  | .unknownOpcode => 1#2
  | .memoryBounds => 2#2

/-! ### Memory -/

/-- The canonical form: addresses strictly rising, every address exists, and no entry equal to what an unlisted address
reads as (log 15). -/
abbrev Memory.wf (m : Memory) : Prop :=
  m.Pairwise (fun c d => c.1 < d.1) ∧ ∀ c ∈ m, c.1 < Config.memSize ∧ c.2 ≠ Config.unlistedByte

/-- `MEM[a]`: the listed byte, or what an unlisted address reads as (R16). -/
def Memory.readByte : Memory → Nat → Byte
  | [], _ => Config.unlistedByte
  | c :: rest, a => if c.1 = a then c.2 else Memory.readByte rest a

/-- Forget an address: it then reads as an unlisted one. -/
def Memory.erase (m : Memory) (a : Nat) : Memory := m.filter (fun c => c.1 ≠ a)

/-- List a byte at its place in the rising order, replacing an entry of the same address. -/
def Memory.insert : Memory → Nat → Byte → Memory
  | [], a, v => [(a, v)]
  | c :: rest, a, v =>
    if c.1 < a then c :: Memory.insert rest a v
    else if c.1 = a then (a, v) :: rest
    else (a, v) :: c :: rest

/-- `MEM[a] <- v`, in canonical form: writing what an unlisted address reads as removes the entry. -/
def Memory.writeByte (m : Memory) (a : Nat) (v : Byte) : Memory :=
  if v = Config.unlistedByte then m.erase a else m.insert a v

/-- The `n` bytes from address `a` on, lowest address first. -/
def Memory.readBytes (m : Memory) (a : Nat) : Nat → List Byte
  | 0 => []
  | n + 1 => m.readByte a :: Memory.readBytes m (a + 1) n

/-- Store a byte sequence from address `a` on, lowest address first. -/
def Memory.writeBytes (m : Memory) (a : Nat) : List Byte → Memory
  | [] => m
  | b :: rest => Memory.writeBytes (m.writeByte a b) (a + 1) rest

/-- The memory whose bytes from address `a` on are the given ones and whose other bytes are unlisted (R16, R86). -/
def Memory.ofBytes (a : Nat) : List Byte → Memory
  | [] => []
  | b :: rest =>
    if b = Config.unlistedByte then Memory.ofBytes (a + 1) rest else (a, b) :: Memory.ofBytes (a + 1) rest

/-- `MemRead(addr, 4)` (R22): bounds first, then the little-endian word.
UNVERIFIED, safe (logs 5, 6): the address is an integer compared unreduced (D5), and a straddling access fails whole (D6). -/
def memRead (m : Memory) (addr : Nat) : Except Exn Word :=
  if Config.memSize < addr + Config.wordBytes then .error (.memoryBounds addr .read)
  else .ok (BitVec.ofNat 32 (littleEndian (m.readBytes addr Config.wordBytes)))

/-- `MemWrite(addr, 4, v)` (R23): bounds first, then all four bytes, byte k from `v[8k+7 : 8k]`.
UNVERIFIED, safe (logs 5, 6), as `memRead`. -/
def memWrite (m : Memory) (addr : Nat) (v : Word) : Except Exn Memory :=
  if Config.memSize < addr + Config.wordBytes then .error (.memoryBounds addr .write)
  else .ok (m.writeBytes addr (toBytes Config.wordBytes v.toNat))

/-! ### Registers and control state -/

/-- `x[r]` (R8, R10). -/
def State.reg (s : State) (r : RegNum) : Word := s.regs[r.toNat]'r.isLt

/-- `x[r] <- v`: all 32 bits (R11). -/
def State.setReg (s : State) (r : RegNum) (v : Word) : State := { s with regs := s.regs.set r.toNat v r.isLt }

/-- `MEM` replaced by the result of a write. -/
def State.setMem (s : State) (m : Memory) : State := { s with mem := m }

/-- `pc <- pc + n` (R59). DESIGN CHOICE, safe (log 10): 21-bit addition, which no step can make wrap. -/
def State.advance (s : State) (n : Nat) : State := { s with pc := s.pc + BitVec.ofNat 21 n }

/-- `STATUS <- Halted` and nothing else (R60). UNVERIFIED (log 12): `pc` stays where no fetch was made (D17). -/
def State.halt (s : State) : State := { s with status := .halted }

/-- Fault entry (R79): the cause, its information and the status are written, and nothing else changes. Control goes
nowhere: there is no handler. UNVERIFIED, safe (log 3): the retained state and these registers are D3. -/
def State.raise (s : State) : Exn → State
  | .unknownOpcode op => { s with faultCause := .unknownOpcode, faultInfo := .opcode op, status := .faulted }
  | .memoryBounds addr kind => { s with faultCause := .memoryBounds, faultInfo := .access addr kind, status := .faulted }

/-- The end of an instruction's execution (R57): the effect and then the advance of `pc` by the instruction's length, or, where
the effect raised, the fault entry on the state the instruction found. -/
def State.complete (s : State) (length : Nat) : Except Exn State → Host.Outcome State Fault Refusal
  | .ok t => .next (t.advance length)
  | .error e => .next (s.raise e)

/-- Read a word of the machine's memory (R22). -/
def State.load (s : State) (addr : Nat) : Except Exn Word := memRead s.mem addr

/-- Write a word of the machine's memory (R23). -/
def State.store (s : State) (addr : Nat) (v : Word) : Except Exn State := (memWrite s.mem addr v).map s.setMem

end Sys2Proof.Machine
end

