-- ==== Sys2Proof/Machine/Operands.lean ====
section
/-! DEFINITION. The operand forms: constant, direct address, base plus offset (R29, R41, R69). -/

namespace Sys2Proof.Machine

/-- `zext_32(const_val)` (R41, R65). -/
def constantOperand (constVal : ConstVal) : Word := constVal.setWidth 32

/-- The direct address of ReadMem and WriteMem: the field as it stands, a byte address (R41). -/
def directAddress (memAddr : MemAddr) : Nat := memAddr.toNat

/-- The base-plus-offset address of Popcnt: the exact sum of two non-negative integers, 0 to 2^32 + 126, reduced modulo
nothing (R69). UNVERIFIED, safe (log 5): the width of the sum is D5. -/
def indirectAddress (s : State) (base : RegNum) (offset : Offset) : Nat := (s.reg base).toNat + offset.toNat

end Sys2Proof.Machine
end

