-- ==== Sys2Proof/Machine/LoadConst.lean ====
section
/-! DEFINITION. LoadConst (41_loadconst.md, R65). -/

namespace Sys2Proof.Machine

/-- `x[reg] <- zext_32(const_val); pc <- pc + 5` (R65). It raises nothing. -/
def execLoadconst (constVal : ConstVal) (reg : RegNum) (s : State) : Host.Outcome State Fault Refusal :=
  s.complete Config.lenLoadconst (.ok (s.setReg reg (constantOperand constVal)))

end Sys2Proof.Machine
end

