-- ==== Sys2Proof/Machine/Popcnt.lean ====
section
/-! DEFINITION. Popcnt (43_popcnt.md, R68, R69). THE NAME MISLEADS: the instruction copies one word from memory to memory
through two base-plus-offset addresses and counts no bits. The spec asks every model to say so (C4, U10, log 17). -/

namespace Sys2Proof.Machine

/-- `v <- MemRead(x[reg_d] + offset_c, 4); MemWrite(x[reg_e] + offset_b, 4, v); pc <- pc + 4` (R68). The pairing crosses the
field order: the source is `reg_d` with `offset_c`, the destination `reg_e` with `offset_b`.
UNVERIFIED (log 7): the read is tested and performed first, so a bad source is the one reported (D7). -/
def execPopcnt (offsetB offsetC : Offset) (regD regE : RegNum) (s : State) : Host.Outcome State Fault Refusal :=
  s.complete Config.lenOther
    ((s.load (indirectAddress s regD offsetC)).bind (s.store (indirectAddress s regE offsetB)))

end Sys2Proof.Machine
end

