-- ==== Sys2Proof/Machine/ReadWriteMem.lean ====
section
/-! DEFINITION. ReadMem and WriteMem (42_readmem_writemem.md, R66, R67). -/

namespace Sys2Proof.Machine

/-- `x[reg] <- MemRead(mem_addr, 4); pc <- pc + 4` (R66). The bounds test always passes (R29). -/
def execReadmem (memAddr : MemAddr) (reg : RegNum) (s : State) : Host.Outcome State Fault Refusal :=
  s.complete Config.lenOther ((s.load (directAddress memAddr)).map (s.setReg reg))

/-- `MemWrite(mem_addr, 4, x[reg]); pc <- pc + 4` (R67). The bounds test always passes (R29). -/
def execWritemem (reg : RegNum) (memAddr : MemAddr) (s : State) : Host.Outcome State Fault Refusal :=
  s.complete Config.lenOther (s.store (directAddress memAddr) (s.reg reg))

end Sys2Proof.Machine
end

