-- ==== Sys2Proof/Machine/Dispatch.lean ====
section
/-! DEFINITION. `execute instr` (R57): one arm per instruction, in the order of spec/opcode_table.json. -/

namespace Sys2Proof.Machine

def exec (i : Instr) (s : State) : Host.Outcome State Fault Refusal :=
  match i with
  | .popcnt offsetB offsetC regD regE => Sys2Proof.Machine.execPopcnt offsetB offsetC regD regE s
  | .loadconst constVal reg => Sys2Proof.Machine.execLoadconst constVal reg s
  | .readmem memAddr reg => Sys2Proof.Machine.execReadmem memAddr reg s
  | .writemem reg memAddr => Sys2Proof.Machine.execWritemem reg memAddr s

end Sys2Proof.Machine
end

