-- ==== Sys2Proof/Machine/Cycle.lean ====
section
/-! DEFINITION. The fetch-decode-execute cycle of a Running machine (R57, R60, R78), and placing a word where it fetches. -/

namespace Sys2Proof.Machine

/-- The byte window the decoder sees: the bytes from `pc` on that lie below `CODE_SIZE`, at most as many as the longest
instruction takes (R26, R46). UNVERIFIED, unsafe (log 2): they come from the live memory (R33, D2). -/
def State.window (s : State) : List Byte :=
  s.mem.readBytes s.pc.toNat (min Config.maxLength (s.codeSize.toNat - s.pc.toNat))

/-- One cycle of a Running machine: end of code, then truncation, then the opcode, then the instruction (R57, R78). -/
def cycle (s : State) : Host.Outcome State Fault Refusal :=
  if s.codeSize.toNat ≤ s.pc.toNat then .next s.halt
  else if Config.memSize < s.codeSize.toNat then .fault .codeSizeOutOfRange
  else
    match decode s.window with
    | .truncated => .next s.halt
    | .unknownOpcode op => .next (s.raise (.unknownOpcode op))
    | .instruction i _ => exec i s

/-- The state with the given bytes stored from `pc` on, Running, and with `CODE_SIZE` raised where needed to take in the
instruction they begin with. DESIGN CHOICE (log 23): where the bytes do not fit in memory the state is left as it is. -/
def State.placeAtPc (s : State) (bytes : List Byte) : State :=
  match bytes with
  | [] => s
  | b :: rest =>
    if Config.memSize < s.pc.toNat + (b :: rest).length then s
    else
      { s with
        mem := s.mem.writeBytes s.pc.toNat (b :: rest)
        codeSize := BitVec.ofNat 21 (max s.codeSize.toNat (s.pc.toNat + lengthOf (opcodeOf b)))
        status := .running }

end Sys2Proof.Machine
end

