-- ==== Sys2Proof/Machine/Step.lean ====
section
/-! DEFINITION. `step` (R57, R61), and the host's hook that places an instruction where the next step fetches. -/

namespace Sys2Proof.Machine

/-- `step(MachineState)`: one cycle while Running (R57); a Halted or Faulted machine stays as it is (R61; log 11). -/
def step (s : State) : Host.Outcome State Fault Refusal :=
  match s.status with
  | .running => cycle s
  | .halted => .next s
  | .faulted => .next s

/-- The state with the instruction given by a table word placed at `pc` (log 13 says how it stands for the load). -/
def State.withFetchWord (s : State) (nbits w : Nat) : State := s.placeAtPc (tableBytes nbits w)

end Sys2Proof.Machine
end

