-- ==== Sys2Proof/Machine/Assembler.lean ====
section
/-! DEFINITION. The assembler: source text to instructions (R51 to R56). It is host software and no part of the hardware
(R3); the step calls nothing of this file. Its spellings are the spec's own choices (D11 to D13, D15; logs 21, 22, 24). -/

namespace Sys2Proof.Machine

/-- Why a source text is rejected: the causes of `ParseError` (R55, D15). -/
inductive ParseError where
  /-- The mnemonic is none of the four. -/
  | unknownMnemonic
  /-- A line has too few or too many operands. -/
  | operandCount
  /-- An operand token is not a number. -/
  | notANumber
  /-- A field is outside its declared range. -/
  | outOfRange
  deriving DecidableEq, Repr

/-- Token separators within a line: commas and white space (R51).
DESIGN CHOICE (log 22): the white space is the space, the tab and the carriage return. -/
def isSeparator (c : Char) : Bool := c == ',' || c == ' ' || c == '\t' || c == '\r'

/-- Cut a character sequence at every character that satisfies `cut`; the pieces may be empty. -/
def cutAt (cut : Char → Bool) : List Char → List (List Char)
  | [] => [[]]
  | c :: rest =>
    if cut c then [] :: cutAt cut rest
    else
      match cutAt cut rest with
      | [] => [[c]]
      | piece :: pieces => (c :: piece) :: pieces

/-- The lines of a source text. -/
def sourceLines (text : List Char) : List (List Char) := cutAt (fun c => c == '\n') text

/-- The tokens of a line (R51). -/
def tokens (line : List Char) : List (List Char) := (cutAt isSeparator line).filter (fun t => !t.isEmpty)

/-- A comment line begins with one of the two comment markers (R51, R54). -/
def isComment : List Char → Bool
  | '#' :: _ => true
  | ';' :: _ => true
  | _ => false

/-- The value of a digit in the given base. -/
def digitValue (base : Nat) (c : Char) : Option Nat :=
  let v :=
    if '0' ≤ c ∧ c ≤ '9' then some (c.toNat - '0'.toNat)
    else if 'a' ≤ c ∧ c ≤ 'f' then some (c.toNat - 'a'.toNat + 10)
    else if 'A' ≤ c ∧ c ≤ 'F' then some (c.toNat - 'A'.toNat + 10)
    else none
  v.filter (fun n => decide (n < base))

/-- The digits of a number, most significant first, on top of what has been read. -/
def digitsValue (base : Nat) : (acc : Nat) → List Char → Option Nat
  | acc, [] => some acc
  | acc, c :: rest =>
    match digitValue base c with
    | some d => digitsValue base (acc * base + d) rest
    | none => none

/-- A number in the given base: at least one digit, and nothing but digits (D15). -/
def number (base : Nat) (digits : List Char) : Option Nat :=
  if digits.isEmpty then none else digitsValue base 0 digits

/-- A numeric token: hexadecimal after the marker `0x` or `0X`, decimal otherwise (R52, R54). -/
def numericToken : List Char → Option Nat
  | '0' :: 'x' :: digits => number 16 digits
  | '0' :: 'X' :: digits => number 16 digits
  | digits => number 10 digits

/-- A register token: the marker `r` or `R` is stripped, and a decimal number follows (R52, R54). -/
def registerToken : List Char → Option Nat
  | 'r' :: digits => number 10 digits
  | 'R' :: digits => number 10 digits
  | digits => number 10 digits

/-- The unvalidated instruction of a line's tokens: the mnemonic in any case, then the operands in field order (R51, R53). -/
def parseTokens (mnemonic : List Char) (operands : List (List Char)) : Except ParseError RawInstr :=
  let name := mnemonic.map Char.toLower
  let known (raw : Option RawInstr) : Except ParseError RawInstr :=
    match raw with
    | some r => .ok r
    | none => .error .notANumber
  if name = "loadconst".toList then
    match operands with
    | [c, r] => known ((numericToken c).bind (fun c => (registerToken r).map (fun r => .loadconst c r)))
    | _ => .error .operandCount
  else if name = "readmem".toList then
    match operands with
    | [a, r] => known ((numericToken a).bind (fun a => (registerToken r).map (fun r => .readmem a r)))
    | _ => .error .operandCount
  else if name = "writemem".toList then
    match operands with
    | [r, a] => known ((registerToken r).bind (fun r => (numericToken a).map (fun a => .writemem r a)))
    | _ => .error .operandCount
  else if name = "popcnt".toList then
    match operands with
    | [b, c, d, e] =>
      known ((numericToken b).bind (fun b => (numericToken c).bind (fun c =>
        (registerToken d).bind (fun d => (registerToken e).map (fun e => .popcnt b c d e)))))
    | _ => .error .operandCount
  else .error .unknownMnemonic

/-- Validation with its error (R55). -/
def validated (raw : RawInstr) : Except ParseError Instr :=
  match raw.validate with
  | some i => .ok i
  | none => .error .outOfRange

/-- A line: nothing for a comment or blank line, else one instruction (R51, R56). -/
def assembleLine (line : List Char) : Except ParseError (Option Instr) :=
  if isComment line then .ok none
  else
    match tokens line with
    | [] => .ok none
    | mnemonic :: operands => ((parseTokens mnemonic operands).bind validated).map some

/-- The instructions of the lines in source order; the first bad line aborts, with no partial output (R55, R56). -/
def assembleLines : List (List Char) → Except ParseError (List Instr)
  | [] => .ok []
  | line :: rest =>
    (assembleLine line).bind (fun one => (assembleLines rest).map (fun more => one.toList ++ more))

/-- `assemble(sourceText)` (R56). -/
def assemble (sourceText : String) : Except ParseError (List Instr) := assembleLines (sourceLines sourceText.toList)

/-- The binary of a source text: the packed instructions, one after the other (R50, R56). -/
def assembleBinary (sourceText : String) : Except ParseError (List Byte) := (assemble sourceText).map packProgram

end Sys2Proof.Machine
end

