-- ==== Sys2Proof/Machine/HostInterface.lean ====
section
/-! DEFINITION. What the host does: `loadProgram` (R86, R87), `run` (R58, R64) and the diagnostic dump (R84). -/

namespace Sys2Proof.Machine

/-- `loadProgram(bytes)`: a fresh state with the bytes laid from address 0 on, taken as they are (R86); a program longer
than memory is refused and no state results (R87).
UNVERIFIED (logs 1, 9): one memory holds program and data (D1); the bound is D9. -/
def loadProgram (bytes : List Byte) : Except LoadError State :=
  if Config.memSize < bytes.length then .error .programTooLong
  else .ok { State.reset with mem := Memory.ofBytes 0 bytes, codeSize := BitVec.ofNat 21 bytes.length }

/-- Repeat `step` while the machine is Running, at most `k` times (R58). -/
def runFor : Nat → State → Host.Outcome State Fault Refusal
  | 0, s => .next s
  | k + 1, s =>
    if s.status = .running then
      match step s with
      | .next t => runFor k t
      | .fault r => .fault r
      | .refused r => .refused r
    else .next s

/-- The spec's bound on the steps of a run: one more than the instructions `CODE_SIZE` bytes can hold (R64). -/
def stepBound (s : State) : Nat := s.codeSize.toNat / 4 + 1

/-- `run(MachineState)`: step until the machine is no longer Running (R58). DEDUCED, safe (log 19): the bound of R64 makes it
a total function and cuts no run of a well-formed state short. -/
def run (s : State) : Host.Outcome State Fault Refusal := runFor (stepBound s) s

/-- The diagnostic dump of the inclusive range `lo .. hi`: each address that is a multiple of 4 and whose word lies inside
memory, with its word (R84; the bounds are D16, log 20). It changes nothing; its document format is out of scope (R3). -/
def dump (s : State) (lo hi : Nat) : List (Nat × Word) :=
  ((List.range (min (hi + 1) Config.memSize)).filter
    (fun a => decide (lo ≤ a) && a % 4 == 0 && decide (a + Config.wordBytes ≤ Config.memSize))).map
    (fun a => (a, BitVec.ofNat 32 (littleEndian (s.mem.readBytes a Config.wordBytes))))

end Sys2Proof.Machine
end

