-- ==== Sys2Proof/Safety.lean ====
section
/-! DEFINITION. The words in which claims speak of a run: well-formed states (R19), a legal fault record (R15), a normal end
(R14, R79), and what an instruction reads and writes (R11, R16). -/

namespace Sys2Proof.Machine

/-- A well-formed Machine State (R19): `pc <= CODE_SIZE <= 2^20`, `FAULT_CAUSE` non-zero exactly when `STATUS` is Faulted, and
the memory in its canonical form (log 15). Registers and bytes are in range by their types. -/
abbrev State.wf (s : State) : Prop :=
  s.pc.toNat ≤ s.codeSize.toNat ∧ s.codeSize.toNat ≤ Config.memSize ∧
    (s.faultCause ≠ .none ↔ s.status = .faulted) ∧ s.mem.wf

/-- The fault registers hold what the fault entry can have left there (R15, R69, R72, R73). -/
def State.faultRecordLegal (s : State) : Prop :=
  match s.faultCause, s.faultInfo with
  | .none, .zero => True
  | .unknownOpcode, .opcode op => op = 0 ∨ op = 1 ∨ op = 4 ∨ op = 7
  | .memoryBounds, .access addr _ => Config.memSize < addr + Config.wordBytes ∧ addr ≤ 2 ^ 32 + 126
  | _, _ => False

/-- The run ended normally: only such an end counts as the program having computed something (R14, R79). -/
def State.endedNormally (s : State) : Prop := s.status = .halted

/-- The registers an instruction reads (R11). -/
def readRegs : Instr → List RegNum
  | .popcnt _ _ regD regE => [regD, regE]
  | .loadconst _ _ => []
  | .readmem _ _ => []
  | .writemem reg _ => [reg]

/-- The registers an instruction writes (R11). -/
def writtenRegs : Instr → List RegNum
  | .popcnt _ _ _ _ => []
  | .loadconst _ reg => [reg]
  | .readmem _ reg => [reg]
  | .writemem _ _ => []

/-- The address of the word an instruction stores to, where it stores one (R16, R67, R68). -/
def storeAddress (s : State) : Instr → Option Nat
  | .popcnt offsetB _ _ regE => some (indirectAddress s regE offsetB)
  | .loadconst _ _ => none
  | .readmem _ _ => none
  | .writemem _ memAddr => some (directAddress memAddr)

/-- `CODE_SIZE`, `STATUS`, `FAULT_CAUSE` and `FAULT_INFO` are the same in both states (R13 to R15). -/
abbrev sameControl (s t : State) : Prop :=
  t.codeSize = s.codeSize ∧ t.status = s.status ∧ t.faultCause = s.faultCause ∧ t.faultInfo = s.faultInfo

end Sys2Proof.Machine
end

