-- ==== Sys2Proof/Certificates/Slice0/Obligations.lean ====
section
/-! DEFINITION. The statements about the machine. A docstring names the rule a statement formalises and, where a clause rests
on a decision of the spec or on the model's own choice, says so and names the log entry. -/

open Sys2Proof Sys2Proof.Machine

/-! ### Encoding -/

/-- R48, and the same at any position of any longer program (R46): decoding a packed instruction gives it back with its length. -/
def Obligations.DecodeInvertsPack : Prop :=
  ∀ (i : Instr) (before after : List Byte),
    decodeOne (encode i) 0 = .instruction i (encode i).length ∧
    decodeOne (before ++ encode i ++ after) before.length = .instruction i (encode i).length

/-- The spec's own inference in R42 and R48: packing the decoded instruction gives the window back exactly when the window's
padding bits, those from bit 38, 26, 26 or 29 on, are zero. Rests on D8 (log 8). -/
def Obligations.PackInvertsDecodeWithoutPadding : Prop :=
  ∀ (window : List Byte) (i : Instr), decode window = .instruction i window.length →
    (encode i = window ↔
      littleEndian window <
        match i with
        | .loadconst _ _ => 2 ^ 38
        | .readmem _ _ => 2 ^ 26
        | .writemem _ _ => 2 ^ 26
        | .popcnt _ _ _ _ => 2 ^ 29)

/-- R35 and R49: the length is 5 for opcode 3 and 4 for the seven others, and the low 3 bits of the first byte alone decide
both the bytes an instruction takes and whether a window is too short. -/
def Obligations.LengthFollowsOpcodeAlone : Prop :=
  (∀ op : Opcode, lengthOf op = if op.toNat = 3 then 5 else 4) ∧
  (∀ (b : Byte) (rest : List Byte) (i : Instr) (n : Nat), decode (b :: rest) = .instruction i n →
    n = if b.toNat % 8 = 3 then 5 else 4) ∧
  ∀ (b : Byte) (rest : List Byte),
    decode (b :: rest) = .truncated ↔ (b :: rest).length < if b.toNat % 8 = 3 then 5 else 4

/-- R42, by bytes as R37 to R40 place the padding: clearing the padding bits never changes what is decoded. Rests on the
spec's decision D8 (log 8). -/
def Obligations.PaddingBitsIgnored : Prop :=
  ∀ (b0 b1 b2 b3 b4 : Byte) (rest : List Byte),
    (b0.toNat % 8 = 3 →
      decode (b0 :: b1 :: b2 :: b3 :: b4 :: rest) = decode (b0 :: b1 :: b2 :: b3 :: (b4 &&& 0x3F#8) :: rest)) ∧
    (b0.toNat % 8 = 5 ∨ b0.toNat % 8 = 6 →
      decode (b0 :: b1 :: b2 :: b3 :: rest) = decode (b0 :: b1 :: b2 :: (b3 &&& 0x03#8) :: rest)) ∧
    (b0.toNat % 8 = 2 →
      decode (b0 :: b1 :: b2 :: b3 :: rest) = decode (b0 :: b1 :: b2 :: (b3 &&& 0x1F#8) :: rest))

/-- R46, step by step: the opcode from the first byte, the length test, the little-endian sum, the fields of R37 to R40 and the
illegal opcodes. -/
def Obligations.DecoderFollowsItsSteps : Prop :=
  ∀ (bytes : List Byte) (pc : Nat), pc < bytes.length →
    let op := (bytes.getD pc 0).toNat % 8
    let n := if op = 3 then 5 else 4
    let w := ((List.range n).map (fun k => (bytes.getD (pc + k) 0).toNat * 2 ^ (8 * k))).sum
    decodeOne bytes pc =
      if bytes.length < pc + n then .truncated
      else if op = 3 then
        .instruction (.loadconst (BitVec.ofNat 29 (w / 2 ^ 3 % 2 ^ 29)) (BitVec.ofNat 6 (w / 2 ^ 32 % 2 ^ 6))) 5
      else if op = 5 then
        .instruction (.readmem (BitVec.ofNat 17 (w / 2 ^ 3 % 2 ^ 17)) (BitVec.ofNat 6 (w / 2 ^ 20 % 2 ^ 6))) 4
      else if op = 6 then
        .instruction (.writemem (BitVec.ofNat 6 (w / 2 ^ 3 % 2 ^ 6)) (BitVec.ofNat 17 (w / 2 ^ 9 % 2 ^ 17))) 4
      else if op = 2 then
        .instruction (.popcnt (BitVec.ofNat 7 (w / 2 ^ 3 % 2 ^ 7)) (BitVec.ofNat 7 (w / 2 ^ 10 % 2 ^ 7))
          (BitVec.ofNat 6 (w / 2 ^ 17 % 2 ^ 6)) (BitVec.ofNat 6 (w / 2 ^ 23 % 2 ^ 6))) 4
      else .unknownOpcode (BitVec.ofNat 3 op)

/-- R45: a window of its opcode's length is a legal instruction for opcodes 2, 3, 5, 6 and illegal for 0, 1, 4, 7, whatever its
other bits are. -/
def Obligations.OpcodeAloneDecidesLegality : Prop :=
  ∀ (b : Byte) (rest : List Byte), (b :: rest).length = (if b.toNat % 8 = 3 then 5 else 4) →
    (b.toNat % 8 = 2 ∨ b.toNat % 8 = 3 ∨ b.toNat % 8 = 5 ∨ b.toNat % 8 = 6 →
      ∃ i, decode (b :: rest) = .instruction i (b :: rest).length) ∧
    (b.toNat % 8 = 0 ∨ b.toNat % 8 = 1 ∨ b.toNat % 8 = 4 ∨ b.toNat % 8 = 7 →
      decode (b :: rest) = .unknownOpcode (BitVec.ofNat 3 (b.toNat % 8)))

/-- Words written out from the layouts R37 to R40, one of each instruction with its highest field bits set (95_test_vectors.md
V1 rows 8, 15, 22, 32). -/
def Obligations.WrittenWordsDecode : Prop :=
  decode [0xFB#8, 0xFF#8, 0xFF#8, 0xFF#8, 0x3F#8] = .instruction (.loadconst 536870911#29 63#6) 5 ∧
  decode [0xFD#8, 0xFF#8, 0xFF#8, 0x03#8] = .instruction (.readmem 131071#17 63#6) 4 ∧
  decode [0xFE#8, 0xFF#8, 0xFF#8, 0x03#8] = .instruction (.writemem 63#6 131071#17) 4 ∧
  decode [0x52#8, 0x14#8, 0x84#8, 0x01#8] = .instruction (.popcnt 10#7 5#7 2#6 3#6) 4

/-- R41 and R55: validation accepts exactly the operand tuples of instructions, and rejects exactly those with a field outside
its declared range. -/
def Obligations.ValidationAcceptsExactlyTheRanges : Prop :=
  (∀ (raw : RawInstr) (i : Instr), raw.validate = some i ↔ raw = RawInstr.ofInstr i) ∧
  ∀ raw : RawInstr, raw.validate = none ↔
    match raw with
    | .popcnt b c d e => 128 ≤ b ∨ 128 ≤ c ∨ 64 ≤ d ∨ 64 ≤ e
    | .loadconst c r => 2 ^ 29 ≤ c ∨ 64 ≤ r
    | .readmem a r => 2 ^ 17 ≤ a ∨ 64 ≤ r
    | .writemem r a => 64 ≤ r ∨ 2 ^ 17 ≤ a

/-- R50: in a packed program each instruction decodes where the ones before it end. -/
def Obligations.PackedProgramDecodesInOrder : Prop :=
  ∀ (before after : List Instr) (i : Instr),
    decodeOne (packProgram (before ++ i :: after)) (packProgram before).length = .instruction i i.length ∧
    packProgram (before ++ i :: after) = packProgram before ++ encode i ++ packProgram after

/-- R56: the assembler succeeds exactly when every line is accepted, and gives one instruction for each instruction line, in
source order. Host software; the spellings are D11 to D13 and D15 (logs 21, 22, 24). -/
def Obligations.AssemblerKeepsSourceOrder : Prop :=
  ∀ lines : List (List Char),
    ((∃ program, assembleLines lines = .ok program) ↔ ∀ line ∈ lines, ∃ one, assembleLine line = .ok one) ∧
    ∀ program, assembleLines lines = .ok program →
      program = lines.filterMap (fun line => match assembleLine line with
        | .ok one => one
        | .error _ => none)

/-! ### Memory -/

/-- R22: a read past the end raises on its own address, and a read inside gives the little-endian sum of the four bytes. -/
def Obligations.MemReadIsBoundedLittleEndian : Prop :=
  ∀ (m : Memory) (a : Nat),
    (2 ^ 20 < a + 4 → memRead m a = .error (.memoryBounds a .read)) ∧
    (a + 4 ≤ 2 ^ 20 → ∃ v, memRead m a = .ok v ∧
      v.toNat = (m.readByte a).toNat + (m.readByte (a + 1)).toNat * 2 ^ 8 + (m.readByte (a + 2)).toNat * 2 ^ 16 +
        (m.readByte (a + 3)).toNat * 2 ^ 24)

/-- R23: a write past the end raises on its own address and yields no memory, and a write inside puts bits [8k+7 : 8k] at
`a + k` for k = 0 .. 3 and changes no other byte. -/
def Obligations.MemWriteStoresFourBytes : Prop :=
  ∀ (m : Memory) (a : Nat) (v : Word),
    (2 ^ 20 < a + 4 → memWrite m a v = .error (.memoryBounds a .write)) ∧
    (a + 4 ≤ 2 ^ 20 → ∃ m', memWrite m a v = .ok m' ∧
      (∀ k, k < 4 → m'.readByte (a + k) = v.extractLsb' (8 * k) 8) ∧
      ∀ b, b < a ∨ a + 4 ≤ b → m'.readByte b = m.readByte b)

/-- R21, the spec's inference from R22 and R23: after a word write, a read anywhere in bounds, overlapping by 4, 3, 2, 1 or no
bytes, sees byte by byte the stored word where it was stored and the old memory elsewhere. The word itself is read back where it
was written, a read one byte higher is R21's own case, and a read clear of the word answers as before, its error included. -/
def Obligations.OverlappingReadsSeeTheBytes : Prop :=
  ∀ (m m' : Memory) (a : Nat) (v : Word), memWrite m a v = .ok m' →
    (∀ b, b + 4 ≤ 2 ^ 20 → ∃ w, memRead m' b = .ok w ∧
      ∀ k, k < 4 → w.extractLsb' (8 * k) 8 =
        if a ≤ b + k ∧ b + k < a + 4 then v.extractLsb' (8 * (b + k - a)) 8 else m.readByte (b + k)) ∧
    memRead m' a = .ok v ∧
    (∀ w, memRead m' (a + 1) = .ok w →
      w.extractLsb' 0 24 = v.extractLsb' 8 24 ∧ w.extractLsb' 24 8 = m.readByte (a + 4)) ∧
    ∀ b, b + 4 ≤ a ∨ a + 4 ≤ b → memRead m' b = memRead m b

/-- The model's memory is data in one form (log 15): two canonical memories whose every byte reads the same are equal. -/
def Obligations.CanonicalMemoriesEqualByReads : Prop :=
  ∀ m m' : Memory, m.wf → m'.wf → (∀ a, m.readByte a = m'.readByte a) → m = m'

/-! ### Instructions: result, completion and frame -/

/-- R65: LoadConst's word, and its effect from every state: the destination holds the constant zero-extended, `pc` moves by 5,
and nothing else changes. -/
def Obligations.LoadconstWritesZeroExtendedConstant : Prop :=
  ∀ (c : ConstVal) (r : RegNum) (s : State),
    decode (toBytes 5 (3 + c.toNat * 2 ^ 3 + r.toNat * 2 ^ 32)) = .instruction (.loadconst c r) 5 ∧
    ∃ t, exec (.loadconst c r) s = .next t ∧
      (t.reg r).toNat = c.toNat ∧
      (∀ q, q ≠ r → t.reg q = s.reg q) ∧
      t.pc = s.pc + 5#21 ∧
      (∀ a, t.mem.readByte a = s.mem.readByte a) ∧
      sameControl s t

/-- R66: ReadMem's word, and its effect from every state: the destination holds the little-endian word at `mem_addr`, `pc`
moves by 4, and nothing else changes. -/
def Obligations.ReadmemLoadsWord : Prop :=
  ∀ (a : MemAddr) (r : RegNum) (s : State),
    decode (toBytes 4 (5 + a.toNat * 2 ^ 3 + r.toNat * 2 ^ 20)) = .instruction (.readmem a r) 4 ∧
    ∃ t, exec (.readmem a r) s = .next t ∧
      (t.reg r).toNat =
        (s.mem.readByte a.toNat).toNat + (s.mem.readByte (a.toNat + 1)).toNat * 2 ^ 8 +
          (s.mem.readByte (a.toNat + 2)).toNat * 2 ^ 16 + (s.mem.readByte (a.toNat + 3)).toNat * 2 ^ 24 ∧
      (∀ q, q ≠ r → t.reg q = s.reg q) ∧
      t.pc = s.pc + 4#21 ∧
      (∀ b, t.mem.readByte b = s.mem.readByte b) ∧
      sameControl s t

/-- R67: WriteMem's word, and its effect from every state: the four bytes at `mem_addr` hold the register, low byte first, `pc`
moves by 4, and no other byte, no register and no control state changes. -/
def Obligations.WritememStoresWord : Prop :=
  ∀ (r : RegNum) (a : MemAddr) (s : State),
    decode (toBytes 4 (6 + r.toNat * 2 ^ 3 + a.toNat * 2 ^ 9)) = .instruction (.writemem r a) 4 ∧
    ∃ t, exec (.writemem r a) s = .next t ∧
      (∀ k, k < 4 → t.mem.readByte (directAddress a + k) = (s.reg r).extractLsb' (8 * k) 8) ∧
      (∀ b, b < directAddress a ∨ directAddress a + 4 ≤ b → t.mem.readByte b = s.mem.readByte b) ∧
      directAddress a = a.toNat ∧
      (∀ q, t.reg q = s.reg q) ∧
      t.pc = s.pc + 4#21 ∧
      sameControl s t

/-- R68 where both addresses are in bounds, overlap and coincidence included: Popcnt's word, and the four bytes at the
destination become the four the source held before; it counts no bits. No register is written. The exact sum as the address
is the spec's decision D5 (log 5). -/
def Obligations.PopcntCopiesWord : Prop :=
  ∀ (b c : Offset) (d e : RegNum) (s : State),
    decode (toBytes 4 (2 + b.toNat * 2 ^ 3 + c.toNat * 2 ^ 10 + d.toNat * 2 ^ 17 + e.toNat * 2 ^ 23)) =
      .instruction (.popcnt b c d e) 4 ∧
    (indirectAddress s d c + 4 ≤ 2 ^ 20 → indirectAddress s e b + 4 ≤ 2 ^ 20 →
      ∃ t, exec (.popcnt b c d e) s = .next t ∧
        indirectAddress s d c = (s.reg d).toNat + c.toNat ∧
        indirectAddress s e b = (s.reg e).toNat + b.toNat ∧
        (∀ k, k < 4 → t.mem.readByte (indirectAddress s e b + k) = s.mem.readByte (indirectAddress s d c + k)) ∧
        (∀ a, a < indirectAddress s e b ∨ indirectAddress s e b + 4 ≤ a → t.mem.readByte a = s.mem.readByte a) ∧
        (∀ q, t.reg q = s.reg q) ∧
        t.pc = s.pc + 4#21 ∧
        sameControl s t)

/-- R68's exceptions, on the spec's decisions D3, D5, D6 and D7 (logs 3, 5, 6, 7): a source word that does not lie in memory
faults on the read; with the source in bounds, such a destination faults on the write; the fault entry is the only change. -/
def Obligations.PopcntOutOfBoundsFaults : Prop :=
  ∀ (b c : Offset) (d e : RegNum) (s : State),
    (2 ^ 20 < (s.reg d).toNat + c.toNat + 4 →
      exec (.popcnt b c d e) s = .next { s with
        status := .faulted, faultCause := .memoryBounds, faultInfo := .access ((s.reg d).toNat + c.toNat) .read }) ∧
    ((s.reg d).toNat + c.toNat + 4 ≤ 2 ^ 20 → 2 ^ 20 < (s.reg e).toNat + b.toNat + 4 →
      exec (.popcnt b c d e) s = .next { s with
        status := .faulted, faultCause := .memoryBounds, faultInfo := .access ((s.reg e).toNat + b.toNat) .write })

/-- R68 corner case (d), the spec's inference: with source and destination the same address, memory is unchanged as data, in
every state whose memory is canonical. -/
def Obligations.PopcntOntoItselfKeepsMemory : Prop :=
  ∀ (b c : Offset) (d e : RegNum) (s : State), s.mem.wf →
    indirectAddress s d c = indirectAddress s e b → indirectAddress s d c + 4 ≤ 2 ^ 20 →
    ∃ t, exec (.popcnt b c d e) s = .next t ∧ t.mem = s.mem

/-- R29 and R73, the spec's inference: executing an instruction always answers a next state, and only Popcnt can change the
status, to Faulted with a `MemoryBoundsError`. -/
def Obligations.OnlyPopcntCanFault : Prop :=
  ∀ (i : Instr) (s : State), ∃ t, exec i s = .next t ∧
    (t.status ≠ s.status →
      (∃ b c d e, i = .popcnt b c d e) ∧ t.status = .faulted ∧ t.faultCause = .memoryBounds ∧
        ∃ addr kind, t.faultInfo = .access addr kind ∧ 2 ^ 20 < addr + 4)

/-- R11: the registers an instruction does not write, by the rule's table, are unchanged, whatever the instruction answers. -/
def Obligations.OnlyTableRegistersAreWritten : Prop :=
  ∀ (i : Instr) (s t : State), exec i s = .next t →
    ∀ q, q ∉ writtenRegs i → t.reg q = s.reg q

/-- R11: a register that an instruction does not read, by the rule's table, has no influence on anything but itself: with any
other value in it the instruction answers the same state, that register apart unless the instruction writes it. -/
def Obligations.UnreadRegisterHasNoInfluence : Prop :=
  ∀ (i : Instr) (s t : State) (q : RegNum) (v : Word), q ∉ readRegs i → exec i s = .next t →
    exec i (s.setReg q v) = .next (if q ∈ writtenRegs i then t else t.setReg q v)

/-- R16: memory is changed only by WriteMem and Popcnt, and only in the word they store, whatever the instruction answers. -/
def Obligations.OnlyStoredWordChangesMemory : Prop :=
  ∀ (i : Instr) (s t : State), exec i s = .next t →
    ∀ a, (∀ dst, storeAddress s i = some dst → a < dst ∨ dst + 4 ≤ a) → t.mem.readByte a = s.mem.readByte a

/-! ### The step -/

/-- R57: where the bytes at `pc` decode to an instruction, a step of a Running machine is that instruction's execution, and the
length the decoder returned is the instruction's. -/
def Obligations.StepRunsDecodedInstruction : Prop :=
  ∀ (s : State) (i : Instr) (n : Nat),
    s.status = .running → s.pc.toNat < s.codeSize.toNat → s.codeSize.toNat ≤ 2 ^ 20 →
    decode s.window = .instruction i n →
    step s = exec i s ∧ n = i.length ∧ i.wellFormed = true

/-- R46: the window the step decodes gives what the decoder gives on the whole program `MEM[0 .. CODE_SIZE-1]` at `pc`. The live
memory as the program is the spec's decision D2 (log 2). -/
def Obligations.WindowDecodesAsWholeProgram : Prop :=
  ∀ s : State, s.pc.toNat < s.codeSize.toNat →
    decode s.window = decodeOne (s.mem.readBytes 0 s.codeSize.toNat) s.pc.toNat

/-- R60: a Running machine at or past the end of the code, or before an instruction that does not fit, halts, legal opcode or
not, and nothing but the status changes. That `pc` stays is D17 (log 12), the order of the tests C2 (log 14). -/
def Obligations.EndOfCodeAndTruncationHalt : Prop :=
  ∀ s : State, s.status = .running →
    (s.codeSize.toNat ≤ s.pc.toNat → step s = .next { s with status := .halted }) ∧
    (s.pc.toNat < s.codeSize.toNat → s.codeSize.toNat ≤ 2 ^ 20 →
      s.codeSize.toNat < s.pc.toNat + (if (s.mem.readByte s.pc.toNat).toNat % 8 = 3 then 5 else 4) →
      step s = .next { s with status := .halted })

/-- R72: an illegal opcode with four bytes left faults, recording cause 1 and the opcode, and the fault entry is the only
change. The fault registers and the retained state are D3 (log 3). -/
def Obligations.IllegalOpcodeFaults : Prop :=
  ∀ s : State, s.status = .running → s.pc.toNat + 4 ≤ s.codeSize.toNat → s.codeSize.toNat ≤ 2 ^ 20 →
    ((s.mem.readByte s.pc.toNat).toNat % 8 = 0 ∨ (s.mem.readByte s.pc.toNat).toNat % 8 = 1 ∨
      (s.mem.readByte s.pc.toNat).toNat % 8 = 4 ∨ (s.mem.readByte s.pc.toNat).toNat % 8 = 7) →
    step s = .next { s with
      status := .faulted, faultCause := .unknownOpcode,
      faultInfo := .opcode (BitVec.ofNat 3 ((s.mem.readByte s.pc.toNat).toNat % 8)) }

/-- R61: a step of a Halted or Faulted machine changes nothing. The spec's decision D10 (log 11). -/
def Obligations.EndedMachineStaysAsItIs : Prop :=
  ∀ s : State, s.status = .halted ∨ s.status = .faulted → step s = .next s

/-- R59: while the machine goes on, a step that decoded an instruction moves `pc` by exactly the decoder's length, 5 for
LoadConst and 4 for the others, without wrapping. -/
def Obligations.PcAdvancesByDecodedLength : Prop :=
  ∀ (s t : State) (i : Instr) (n : Nat), s.wf → s.status = .running → s.pc.toNat < s.codeSize.toNat →
    decode s.window = .instruction i n → step s = .next t → t.status = .running →
    t.pc.toNat = s.pc.toNat + n ∧
      n = match i with
        | .loadconst _ _ => 5
        | .readmem _ _ => 4
        | .writemem _ _ => 4
        | .popcnt _ _ _ _ => 4

/-- R33, on the spec's decision D2 (log 2): a word `v` that WriteMem or Popcnt stores at `dst`, wherever it lies, is seen by the
very next step, which acts on the bytes from the new `pc` on as the store left them. Last, the word stored exactly there: it
spells the next instruction whole, or it is the low four bytes of a LoadConst whose fifth byte stays, as in the spec's P8. -/
def Obligations.StoreIsSeenByNextFetch : Prop :=
  ∀ (s : State) (j : Instr) (dst : Nat) (v : Word), s.status = .running → s.codeSize.toNat ≤ 2 ^ 20 →
    decode s.window = .instruction j 4 →
    ((∃ r a, j = .writemem r a ∧ dst = directAddress a ∧ v = s.reg r) ∨
      (∃ b c d e, j = .popcnt b c d e ∧ dst = indirectAddress s e b ∧ dst + 4 ≤ 2 ^ 20 ∧
        memRead s.mem (indirectAddress s d c) = .ok v)) →
    let next := s.pc.toNat + 4
    let fetched := (List.range (min 5 (s.codeSize.toNat - next))).map (fun k =>
      if dst ≤ next + k ∧ next + k < dst + 4 then v.extractLsb' (8 * (next + k - dst)) 8 else s.mem.readByte (next + k))
    ∃ t, step s = .next t ∧ t.pc.toNat = next ∧ t.status = .running ∧
      (step t = match decode fetched with
        | .instruction i _ => exec i t
        | .truncated => .next t.halt
        | .unknownOpcode op => .next (t.raise (.unknownOpcode op))) ∧
      (dst = next → ∀ i,
        (next + 4 ≤ s.codeSize.toNat → decode (toBytes 4 v.toNat) = .instruction i 4 → step t = exec i t) ∧
        (next + 5 ≤ s.codeSize.toNat →
          decode (toBytes 4 v.toNat ++ [s.mem.readByte (next + 4)]) = .instruction i 5 → step t = exec i t))

/-- R13: no step changes `CODE_SIZE`. -/
def Obligations.StepKeepsCodeSize : Prop :=
  ∀ s t : State, step s = .next t → t.codeSize = s.codeSize

/-- R15: no step but a fault entry changes the fault registers. The registers themselves are D3 (log 3). -/
def Obligations.FaultRegistersChangeOnlyOnFault : Prop :=
  ∀ s t : State, step s = .next t →
    (t.faultCause ≠ s.faultCause ∨ t.faultInfo ≠ s.faultInfo) → s.status = .running ∧ t.status = .faulted

/-- R81, the spec's inference: a step after which the machine is not Running has changed no register, no memory, no `pc` and no
`CODE_SIZE`. -/
def Obligations.HaltsAndFaultsArePrecise : Prop :=
  ∀ s t : State, step s = .next t → t.status ≠ .running →
    t.regs = s.regs ∧ t.mem = s.mem ∧ t.pc = s.pc ∧ t.codeSize = s.codeSize

/-! ### Reset, load, run, dump -/

/-- R85 for a reset with no program, which is `loadProgram` of the empty sequence (D19, log 13). -/
def Obligations.ResetClearsEverything : Prop :=
  (∀ r, State.reset.reg r = 0#32) ∧ State.reset.pc = 0#21 ∧ State.reset.codeSize = 0#21 ∧
    State.reset.status = .running ∧ State.reset.faultCause = .none ∧ State.reset.faultInfo = .zero ∧
    (∀ a, State.reset.mem.readByte a = 0#8) ∧ loadProgram [] = .ok State.reset

/-- R86 and R87: a program that fits is laid from address 0 on over zeroed memory, every other piece of state at its reset
value; a longer one is refused. One memory is D1 (log 1), the bound D9 (log 9). -/
def Obligations.LoadLaysProgramOverZeroes : Prop :=
  ∀ bytes : List Byte,
    (bytes.length ≤ 2 ^ 20 → ∃ s, loadProgram bytes = .ok s ∧
      (∀ r, s.reg r = 0#32) ∧ s.pc = 0#21 ∧ s.codeSize.toNat = bytes.length ∧ s.status = .running ∧
      s.faultCause = .none ∧ s.faultInfo = .zero ∧
      (∀ a (h : a < bytes.length), s.mem.readByte a = bytes[a]) ∧
      ∀ a, bytes.length ≤ a → s.mem.readByte a = 0#8) ∧
    (2 ^ 20 < bytes.length → loadProgram bytes = .error .programTooLong)

/-- R19, the spec's inference: what `loadProgram` returns is well formed, with a legal fault record. -/
def Obligations.LoadedStateIsWellFormed : Prop :=
  ∀ (bytes : List Byte) (s : State), loadProgram bytes = .ok s → s.wf ∧ s.faultRecordLegal

/-- R19: the reset state is well formed, with a legal fault record. -/
def Obligations.ResetIsWellFormed : Prop := State.reset.wf ∧ State.reset.faultRecordLegal

/-- R19, the spec's inference, with the canonical form of memory (log 15): every step from a well-formed state gives a
well-formed state. -/
def Obligations.StepKeepsWellFormed : Prop :=
  ∀ s t : State, s.wf → step s = .next t → t.wf

/-- R15, R69, R72 and R73: every step keeps the fault record one that the fault entry can leave: an opcode of the four illegal
ones with cause 1, an out-of-bounds address of at most 2^32 + 126 with cause 2. The record is D3 (logs 3, 4). -/
def Obligations.StepKeepsFaultRecordLegal : Prop :=
  ∀ s t : State, s.faultRecordLegal → step s = .next t → t.faultRecordLegal

/-- R19: a step is defined on every well-formed state: it answers a next state, never a fault or a refusal of the model. -/
def Obligations.WellFormedStepAnswersNext : Prop :=
  ∀ s : State, s.wf → ∃ t, step s = .next t

/-- R58 and R64, the latter the spec's inference: a run from any well-formed state ends after some k steps, at most
floor(CODE_SIZE / 4) + 1, in the first state that is not Running, and that state is what `run` answers. -/
def Obligations.RunEndsWithinStepBound : Prop :=
  ∀ s : State, s.wf → ∃ (k : Nat) (t : State), k ≤ s.codeSize.toNat / 4 + 1 ∧
    runFor k s = .next t ∧ t.status ≠ .running ∧ t.wf ∧ run s = .next t ∧
    ∀ j, j < k → ∃ u, runFor j s = .next u ∧ u.status = .running

/-- R84: the dump lists exactly the words at multiples of 4 in the range whose four bytes exist, each with its value. The
bounds are D16 (log 20). -/
def Obligations.DumpListsAlignedWords : Prop :=
  ∀ (s : State) (lo hi a : Nat) (w : Word),
    (a, w) ∈ dump s lo hi ↔
      lo ≤ a ∧ a ≤ hi ∧ a % 4 = 0 ∧ a + 4 ≤ 2 ^ 20 ∧ memRead s.mem a = .ok w

/-- The host's hook (log 23): a table word that decodes to an instruction, placed at `pc` where five bytes fit, is the
instruction the very next step runs. -/
def Obligations.PlacedWordIsRunNext : Prop :=
  ∀ (s : State) (nbits w : Nat) (i : Instr), decodeTableWord nbits w = some i →
    s.pc.toNat + 5 ≤ 2 ^ 20 → s.codeSize.toNat ≤ 2 ^ 20 →
    step (s.withFetchWord nbits w) = exec i (s.withFetchWord nbits w)
end

