-- ==== Sys2Proof/Laws/Bytes.lean ====
section
/-! SUPPORT. Byte order and bit fields: what a byte sequence and the integer it spells have to do with each other. -/

namespace Sys2Proof

theorem length_toBytes (n v : Nat) : (toBytes n v).length = n := by
  induction n generalizing v with
  | zero => rfl
  | succ n ih => simp [toBytes, ih]

theorem littleEndian_lt (bytes : List Byte) : littleEndian bytes < 256 ^ bytes.length := by
  induction bytes with
  | nil => simp [littleEndian]
  | cons b rest ih =>
    have := b.isLt
    simp only [littleEndian, List.length_cons, Nat.pow_succ]
    omega

/-- Serialising keeps the low `n` bytes of the number. -/
theorem littleEndian_toBytes (n v : Nat) : littleEndian (toBytes n v) = v % 256 ^ n := by
  induction n generalizing v with
  | zero => simp [toBytes, littleEndian, Nat.mod_one]
  | succ n ih =>
    have hpow : 256 ^ (n + 1) = 256 * 256 ^ n := by rw [Nat.pow_succ, Nat.mul_comm]
    rw [toBytes, littleEndian, ih, BitVec.toNat_ofNat, hpow, Nat.mod_mul]

/-- A byte sequence is the serialisation of the integer it spells. -/
theorem toBytes_littleEndian (bytes : List Byte) : toBytes bytes.length (littleEndian bytes) = bytes := by
  induction bytes with
  | nil => rfl
  | cons b rest ih =>
    have hb := b.isLt
    have hdiv : (b.toNat + 256 * littleEndian rest) / 256 = littleEndian rest := by omega
    have hmod : BitVec.ofNat 8 (b.toNat + 256 * littleEndian rest) = b := by
      apply BitVec.eq_of_toNat_eq
      simp only [BitVec.toNat_ofNat]
      omega
    simp only [List.length_cons, toBytes, littleEndian, hdiv, hmod, ih]

/-- Byte `k` of a serialised number is its bits [8k+7 : 8k]. -/
theorem getElem_toBytes (n v k : Nat) (h : k < (toBytes n v).length) :
    (toBytes n v)[k] = BitVec.ofNat 8 (v / 256 ^ k) := by
  induction n generalizing v k with
  | zero => simp [toBytes] at h
  | succ n ih =>
    cases k with
    | zero => simp [toBytes]
    | succ k =>
      have h' : k < (toBytes n (v / 256)).length := by
        simp only [length_toBytes] at h ⊢
        omega
      simp only [toBytes, List.getElem_cons_succ, ih (v / 256) k h', Nat.div_div_eq_div_mul, Nat.pow_succ, Nat.mul_comm]

/-- A field as arithmetic: divide, then the width's modulus. -/
theorem toNat_field (w lo width : Nat) : (field w lo width).toNat = w / 2 ^ lo % 2 ^ width := by
  simp [field, Nat.shiftRight_eq_div_pow]

/-- Placing a field above the bits of a smaller number is addition. -/
theorem or_shiftLeft_eq_add {low n : Nat} (high : Nat) (h : low < 2 ^ n) : low ||| high <<< n = low + high * 2 ^ n := by
  rw [Nat.or_comm, ← Nat.shiftLeft_add_eq_or_of_lt h, Nat.shiftLeft_eq, Nat.add_comm]

/-- The packer's word as a sum: every field stands clear of the ones below it (R47). -/
theorem packWord_eq_sum (i : Instr) :
    packWord i =
      match i with
      | .loadconst constVal reg => 3 + constVal.toNat * 2 ^ 3 + reg.toNat * 2 ^ 32
      | .readmem memAddr reg => 5 + memAddr.toNat * 2 ^ 3 + reg.toNat * 2 ^ 20
      | .writemem reg memAddr => 6 + reg.toNat * 2 ^ 3 + memAddr.toNat * 2 ^ 9
      | .popcnt offsetB offsetC regD regE =>
        2 + offsetB.toNat * 2 ^ 3 + offsetC.toNat * 2 ^ 10 + regD.toNat * 2 ^ 17 + regE.toNat * 2 ^ 23 := by
  cases i with
  | loadconst c r =>
    have hc := c.isLt
    simp only [packWord]
    rw [or_shiftLeft_eq_add (low := 3) (n := 3) _ (by omega), or_shiftLeft_eq_add (n := 32) _ (by omega)]
  | readmem a r =>
    have ha := a.isLt
    simp only [packWord]
    rw [or_shiftLeft_eq_add (low := 5) (n := 3) _ (by omega), or_shiftLeft_eq_add (n := 20) _ (by omega)]
  | writemem r a =>
    have hr := r.isLt
    simp only [packWord]
    rw [or_shiftLeft_eq_add (low := 6) (n := 3) _ (by omega), or_shiftLeft_eq_add (n := 9) _ (by omega)]
  | popcnt b c d e =>
    have hb := b.isLt
    have hc := c.isLt
    have hd := d.isLt
    simp only [packWord]
    rw [or_shiftLeft_eq_add (low := 2) (n := 3) _ (by omega), or_shiftLeft_eq_add (n := 10) _ (by omega),
      or_shiftLeft_eq_add (n := 17) _ (by omega), or_shiftLeft_eq_add (n := 23) _ (by omega)]

end Sys2Proof
end

