-- ==== Sys2Proof/Laws/Decode.lean ====
section
/-! SUPPORT. What the decoder can answer, said once. -/

namespace Sys2Proof

/-- The opcode of a byte is the byte's value modulo 8. -/
theorem toNat_opcodeOf (b : Byte) : (opcodeOf b).toNat = b.toNat % 8 := by
  simp [opcodeOf]

/-- A length is 4 or 5. -/
theorem lengthOf_cases (op : Opcode) : lengthOf op = 4 ∨ lengthOf op = 5 := by
  unfold lengthOf
  split
  · exact .inr rfl
  · exact .inl rfl

/-- An instruction takes 4 or 5 bytes (R35). -/
theorem Instr.length_cases (i : Instr) : i.length = 4 ∨ i.length = 5 := by
  cases i with
  | popcnt b c d e => exact .inl rfl
  | loadconst c r => exact .inr rfl
  | readmem a r => exact .inl rfl
  | writemem r a => exact .inl rfl

/-- If the decoder's map answers an instruction, its count is that instruction's length, and the length of the opcode. -/
theorem decodeWord_instruction {op : Opcode} {w n : Nat} {i : Instr} (h : decodeWord op w = .instruction i n) :
    n = i.length ∧ n = lengthOf op := by
  unfold decodeWord at h
  split at h
  · next hop => cases h; exact ⟨rfl, by simp [lengthOf, hop]⟩
  · next hlc =>
    have hlen : lengthOf op = 4 := if_neg hlc
    split at h
    · cases h; exact ⟨rfl, hlen.symm⟩
    · split at h
      · cases h; exact ⟨rfl, hlen.symm⟩
      · split at h
        · cases h; exact ⟨rfl, hlen.symm⟩
        · cases h

/-- The decoder's map never answers a truncation. -/
theorem decodeWord_ne_truncated (op : Opcode) (w : Nat) : decodeWord op w ≠ .truncated := by
  unfold decodeWord
  split <;> (try split) <;> (try split) <;> (try split) <;> simp

/-- If the decoder's map answers an unknown opcode, it is the opcode given, and one of the four illegal ones (R44). -/
theorem decodeWord_unknownOpcode {op op' : Opcode} {w : Nat} (h : decodeWord op w = .unknownOpcode op') :
    op' = op ∧ (op = 0 ∨ op = 1 ∨ op = 4 ∨ op = 7) := by
  unfold decodeWord at h
  split at h
  · cases h
  · split at h
    · cases h
    · split at h
      · cases h
      · split at h
        · cases h
        · next h₃ h₅ h₆ h₂ =>
          cases h
          refine ⟨rfl, ?_⟩
          revert op
          decide

/-- Everything the decoder can answer on a window, in the order of its tests (R46, R78). -/
theorem decode_cases (b : Byte) (rest : List Byte) :
    ((b :: rest).length < lengthOf (opcodeOf b) ∧ decode (b :: rest) = .truncated) ∨
      (lengthOf (opcodeOf b) ≤ (b :: rest).length ∧
        decode (b :: rest) =
          decodeWord (opcodeOf b) (littleEndian ((b :: rest).take (lengthOf (opcodeOf b))))) := by
  rw [decode]
  split
  · next h => exact .inl ⟨h, rfl⟩
  · next h => exact .inr ⟨Nat.le_of_not_lt h, rfl⟩

/-- If the decoder answers an instruction, its count is the instruction's length and the window holds that many bytes. -/
theorem decode_instruction {window : List Byte} {i : Instr} {n : Nat} (h : decode window = .instruction i n) :
    n = i.length ∧ n ≤ window.length := by
  cases window with
  | nil => cases h
  | cons b rest =>
    rcases decode_cases b rest with ⟨_, hd⟩ | ⟨hle, hd⟩
    · rw [hd] at h; cases h
    · rw [hd] at h
      obtain ⟨h₁, h₂⟩ := decodeWord_instruction h
      exact ⟨h₁, h₂ ▸ hle⟩

/-- If the decoder answers an unknown opcode, it is the first byte's, it is illegal, and four bytes are there (R72). -/
theorem decode_unknownOpcode {window : List Byte} {op : Opcode} (h : decode window = .unknownOpcode op) :
    (op = 0 ∨ op = 1 ∨ op = 4 ∨ op = 7) ∧ 4 ≤ window.length ∧ ∃ b rest, window = b :: rest ∧ op = opcodeOf b := by
  cases window with
  | nil => cases h
  | cons b rest =>
    rcases decode_cases b rest with ⟨_, hd⟩ | ⟨hle, hd⟩
    · rw [hd] at h; cases h
    · rw [hd] at h
      obtain ⟨h₁, h₂⟩ := decodeWord_unknownOpcode h
      refine ⟨h₁ ▸ h₂, ?_, b, rest, rfl, h₁⟩
      rcases lengthOf_cases (opcodeOf b) with hl | hl <;> omega

end Sys2Proof
end

