-- ==== Sys2Proof/Laws/Memory.lean ====
section
/-! SUPPORT. Memory: reads after writes, and every memory operation keeps the canonical form. The read laws hold of every
list, canonical or not. -/

namespace Sys2Proof.Machine

/-! ### One byte -/

theorem Memory.readByte_erase (m : Memory) (a b : Nat) :
    (m.erase a).readByte b = if b = a then Config.unlistedByte else m.readByte b := by
  induction m with
  | nil => simp [Memory.erase, Memory.readByte]
  | cons c rest ih =>
    unfold Memory.erase at ih ⊢
    by_cases hc : c.1 = a
    · by_cases hb : b = a
      · simp_all
      · have hcb : c.1 ≠ b := fun h => hb (h ▸ hc)
        simp_all [Memory.readByte]
    · by_cases hb : b = a
      · subst hb
        simp_all [Memory.readByte]
      · simp_all [Memory.readByte]

theorem Memory.readByte_insert (m : Memory) (a b : Nat) (v : Byte) :
    (m.insert a v).readByte b = if b = a then v else m.readByte b := by
  induction m with
  | nil =>
    by_cases hb : b = a
    · simp [Memory.insert, Memory.readByte, hb]
    · simp [Memory.insert, Memory.readByte, hb, Ne.symm hb]
  | cons c rest ih =>
    unfold Memory.insert
    by_cases hlt : c.1 < a
    · rw [if_pos hlt]
      simp only [Memory.readByte, ih]
      by_cases hcb : c.1 = b
      · have : b ≠ a := by omega
        simp [hcb, this]
      · simp [hcb]
    · rw [if_neg hlt]
      by_cases heq : c.1 = a
      · rw [if_pos heq]
        by_cases hb : b = a
        · simp [Memory.readByte, hb]
        · simp [Memory.readByte, hb, Ne.symm hb, heq]
      · rw [if_neg heq]
        by_cases hb : b = a
        · simp [Memory.readByte, hb]
        · simp [Memory.readByte, hb, Ne.symm hb]

/-- One byte read after one byte written. -/
theorem Memory.readByte_writeByte (m : Memory) (a b : Nat) (v : Byte) :
    (m.writeByte a v).readByte b = if b = a then v else m.readByte b := by
  unfold Memory.writeByte
  split
  · next h => rw [Memory.readByte_erase, h]
  · exact Memory.readByte_insert m a b v

/-! ### Byte sequences -/

theorem Memory.length_readBytes (m : Memory) (a n : Nat) : (m.readBytes a n).length = n := by
  induction n generalizing a with
  | zero => rfl
  | succ n ih => simp [Memory.readBytes, ih]

theorem Memory.getElem_readBytes (m : Memory) (a n k : Nat) (h : k < (m.readBytes a n).length) :
    (m.readBytes a n)[k] = m.readByte (a + k) := by
  induction n generalizing a k with
  | zero => simp [Memory.readBytes] at h
  | succ n ih =>
    cases k with
    | zero => simp [Memory.readBytes]
    | succ k =>
      have h' : k < (m.readBytes (a + 1) n).length := by
        simp only [Memory.length_readBytes] at h ⊢
        omega
      simp only [Memory.readBytes, List.getElem_cons_succ, ih (a + 1) k h', Nat.add_assoc, Nat.add_comm 1 k]

/-- One byte read after a byte sequence was stored: the stored byte inside, the old byte outside. -/
theorem Memory.readByte_writeBytes (m : Memory) (a : Nat) (bytes : List Byte) (b : Nat) :
    (m.writeBytes a bytes).readByte b =
      if h : a ≤ b ∧ b - a < bytes.length then bytes[b - a]'h.2 else m.readByte b := by
  induction bytes generalizing m a with
  | nil => simp [Memory.writeBytes]
  | cons v rest ih =>
    rw [Memory.writeBytes, ih (m.writeByte a v) (a + 1)]
    by_cases hin : a + 1 ≤ b ∧ b - (a + 1) < rest.length
    · have hin' : a ≤ b ∧ b - a < (v :: rest).length := by
        simp only [List.length_cons]
        omega
      have hk : b - a = (b - (a + 1)) + 1 := by omega
      rw [dif_pos hin, dif_pos hin']
      simp only [hk, List.getElem_cons_succ]
    · rw [dif_neg hin, Memory.readByte_writeByte]
      by_cases hb : b = a
      · subst hb
        simp
      · have hout : ¬(a ≤ b ∧ b - a < (v :: rest).length) := by
          simp only [List.length_cons]
          omega
        rw [if_neg hb, dif_neg hout]

/-- Reading back the sequence just stored gives it. -/
theorem Memory.readBytes_writeBytes (m : Memory) (a : Nat) (bytes : List Byte) :
    (m.writeBytes a bytes).readBytes a bytes.length = bytes := by
  apply List.ext_getElem
  · exact Memory.length_readBytes _ _ _
  · intro k h₁ h₂
    rw [Memory.getElem_readBytes, Memory.readByte_writeBytes]
    have hk : a ≤ a + k ∧ a + k - a < bytes.length := by omega
    rw [dif_pos hk]
    simp

/-- The bytes of a memory made from a byte sequence: the sequence, and unlisted bytes around it (R16). -/
theorem Memory.readByte_ofBytes (a : Nat) (bytes : List Byte) (b : Nat) :
    (Memory.ofBytes a bytes).readByte b =
      if h : a ≤ b ∧ b - a < bytes.length then bytes[b - a]'h.2 else Config.unlistedByte := by
  induction bytes generalizing a b with
  | nil => simp [Memory.ofBytes, Memory.readByte]
  | cons v rest ih =>
    have tail : a ≠ b → (Memory.ofBytes (a + 1) rest).readByte b =
        if h : a ≤ b ∧ b - a < (v :: rest).length then (v :: rest)[b - a]'h.2 else Config.unlistedByte := by
      intro hab
      rw [ih (a + 1) b]
      by_cases hin : a + 1 ≤ b ∧ b - (a + 1) < rest.length
      · have hin' : a ≤ b ∧ b - a < (v :: rest).length := by
          simp only [List.length_cons]
          omega
        have hk : b - a = (b - (a + 1)) + 1 := by omega
        rw [dif_pos hin, dif_pos hin']
        simp only [hk, List.getElem_cons_succ]
      · have hout : ¬(a ≤ b ∧ b - a < (v :: rest).length) := by
          simp only [List.length_cons]
          omega
        rw [dif_neg hin, dif_neg hout]
    have below : (Memory.ofBytes (a + 1) rest).readByte a = Config.unlistedByte := by
      rw [ih (a + 1) a, dif_neg (by omega)]
    unfold Memory.ofBytes
    by_cases hv : v = Config.unlistedByte
    · rw [if_pos hv]
      by_cases hab : a = b
      · subst hab
        rw [below, dif_pos (by simp)]
        simp [hv]
      · exact tail hab
    · rw [if_neg hv]
      by_cases hab : a = b
      · subst hab
        simp [Memory.readByte]
      · rw [Memory.readByte, if_neg hab]
        exact tail hab

/-! ### The canonical form -/

theorem Memory.wf_nil : Memory.wf [] := by simp [Memory.wf]

theorem Memory.wf_erase {m : Memory} (h : m.wf) (a : Nat) : (m.erase a).wf :=
  ⟨h.1.filter _, fun c hc => h.2 c (List.mem_of_mem_filter hc)⟩

theorem Memory.mem_insert {m : Memory} {a : Nat} {v : Byte} {c : Host.Cell} (h : c ∈ m.insert a v) :
    c = (a, v) ∨ c ∈ m := by
  induction m with
  | nil => simpa [Memory.insert] using h
  | cons d rest ih =>
    unfold Memory.insert at h
    split at h
    · rcases List.mem_cons.mp h with h | h
      · exact .inr (h ▸ List.mem_cons_self)
      · exact (ih h).imp_right (List.mem_cons_of_mem _)
    · split at h
      · rcases List.mem_cons.mp h with h | h
        · exact .inl h
        · exact .inr (List.mem_cons_of_mem _ h)
      · rcases List.mem_cons.mp h with h | h
        · exact .inl h
        · exact .inr h

theorem Memory.pairwise_insert {m : Memory} (h : m.Pairwise (fun c d => c.1 < d.1)) (a : Nat) (v : Byte) :
    (m.insert a v).Pairwise (fun c d => c.1 < d.1) := by
  induction m with
  | nil => simp [Memory.insert]
  | cons d rest ih =>
    obtain ⟨hd, hrest⟩ := List.pairwise_cons.mp h
    unfold Memory.insert
    split
    · next hlt =>
      refine List.pairwise_cons.mpr ⟨fun c hc => ?_, ih hrest⟩
      rcases Memory.mem_insert hc with rfl | hc
      · exact hlt
      · exact hd c hc
    · split
      · next heq => exact List.pairwise_cons.mpr ⟨fun c hc => heq ▸ hd c hc, hrest⟩
      · next hge hne =>
        refine List.pairwise_cons.mpr ⟨fun c hc => ?_, h⟩
        have had : a < d.1 := by omega
        rcases List.mem_cons.mp hc with rfl | hc
        · exact had
        · exact Nat.lt_trans had (hd c hc)

theorem Memory.wf_insert {m : Memory} (h : m.wf) {a : Nat} {v : Byte} (ha : a < Config.memSize)
    (hv : v ≠ Config.unlistedByte) : (m.insert a v).wf := by
  refine ⟨Memory.pairwise_insert h.1 a v, fun c hc => ?_⟩
  rcases Memory.mem_insert hc with rfl | hc
  · exact ⟨ha, hv⟩
  · exact h.2 c hc

/-- Writing a byte inside memory keeps the canonical form. -/
theorem Memory.wf_writeByte {m : Memory} (h : m.wf) {a : Nat} (v : Byte) (ha : a < Config.memSize) :
    (m.writeByte a v).wf := by
  unfold Memory.writeByte
  split
  · exact Memory.wf_erase h a
  · next hv => exact Memory.wf_insert h ha hv

/-- Writing a byte sequence inside memory keeps the canonical form. -/
theorem Memory.wf_writeBytes {m : Memory} (h : m.wf) {a : Nat} (bytes : List Byte)
    (ha : a + bytes.length ≤ Config.memSize) : (m.writeBytes a bytes).wf := by
  induction bytes generalizing m a with
  | nil => exact h
  | cons v rest ih =>
    simp only [List.length_cons] at ha
    exact ih (Memory.wf_writeByte h v (by omega)) (by omega)

theorem Memory.mem_ofBytes {a : Nat} {bytes : List Byte} {c : Host.Cell} (h : c ∈ Memory.ofBytes a bytes) :
    a ≤ c.1 ∧ c.1 < a + bytes.length ∧ c.2 ≠ Config.unlistedByte := by
  induction bytes generalizing a with
  | nil => simp [Memory.ofBytes] at h
  | cons v rest ih =>
    simp only [List.length_cons]
    unfold Memory.ofBytes at h
    split at h
    · obtain ⟨hlo, hhi, hv⟩ := ih h
      exact ⟨by omega, by omega, hv⟩
    · next hv =>
      rcases List.mem_cons.mp h with rfl | h
      · exact ⟨Nat.le_refl a, by omega, hv⟩
      · obtain ⟨hlo, hhi, hv'⟩ := ih h
        exact ⟨by omega, by omega, hv'⟩

/-- A memory made from a byte sequence that fits has the canonical form. -/
theorem Memory.wf_ofBytes {a : Nat} {bytes : List Byte} (ha : a + bytes.length ≤ Config.memSize) :
    (Memory.ofBytes a bytes).wf := by
  refine ⟨?_, fun c hc => ⟨by have := Memory.mem_ofBytes hc; omega, (Memory.mem_ofBytes hc).2.2⟩⟩
  clear ha
  induction bytes generalizing a with
  | nil => simp [Memory.ofBytes]
  | cons v rest ih =>
    unfold Memory.ofBytes
    split
    · exact ih
    · refine List.pairwise_cons.mpr ⟨fun c hc => ?_, ih⟩
      have := (Memory.mem_ofBytes hc).1
      simp only
      omega

/-- The memory after reset has the canonical form. -/
theorem Memory.wf_reset : State.reset.mem.wf := Memory.wf_nil

end Sys2Proof.Machine
end

