-- ==== Sys2Proof/Laws/State.lean ====
section
/-! SUPPORT. The field lemmas of State: what each update leaves in each field, so that no proof unfolds a record update. -/

namespace Sys2Proof.Machine

/-! ### `setReg` -/

@[simp] theorem State.setReg_pc (s : State) (r : RegNum) (v : Word) : (s.setReg r v).pc = s.pc := rfl
@[simp] theorem State.setReg_codeSize (s : State) (r : RegNum) (v : Word) : (s.setReg r v).codeSize = s.codeSize := rfl
@[simp] theorem State.setReg_status (s : State) (r : RegNum) (v : Word) : (s.setReg r v).status = s.status := rfl
@[simp] theorem State.setReg_faultCause (s : State) (r : RegNum) (v : Word) :
    (s.setReg r v).faultCause = s.faultCause := rfl
@[simp] theorem State.setReg_faultInfo (s : State) (r : RegNum) (v : Word) :
    (s.setReg r v).faultInfo = s.faultInfo := rfl
@[simp] theorem State.setReg_mem (s : State) (r : RegNum) (v : Word) : (s.setReg r v).mem = s.mem := rfl

/-- One register read after one register write: the written one holds the value, every other one is as before. -/
theorem State.reg_setReg (s : State) (r q : RegNum) (v : Word) :
    (s.setReg r v).reg q = if q = r then v else s.reg q := by
  unfold State.reg State.setReg
  simp only [Vector.getElem_set]
  by_cases h : q = r
  · simp [h]
  · have : r.toNat ≠ q.toNat := fun e => h (BitVec.eq_of_toNat_eq e.symm)
    simp [h, this]

/-! ### `setMem` -/

@[simp] theorem State.setMem_regs (s : State) (m : Memory) : (s.setMem m).regs = s.regs := rfl
@[simp] theorem State.setMem_reg (s : State) (m : Memory) (r : RegNum) : (s.setMem m).reg r = s.reg r := rfl
@[simp] theorem State.setMem_pc (s : State) (m : Memory) : (s.setMem m).pc = s.pc := rfl
@[simp] theorem State.setMem_codeSize (s : State) (m : Memory) : (s.setMem m).codeSize = s.codeSize := rfl
@[simp] theorem State.setMem_status (s : State) (m : Memory) : (s.setMem m).status = s.status := rfl
@[simp] theorem State.setMem_faultCause (s : State) (m : Memory) : (s.setMem m).faultCause = s.faultCause := rfl
@[simp] theorem State.setMem_faultInfo (s : State) (m : Memory) : (s.setMem m).faultInfo = s.faultInfo := rfl
@[simp] theorem State.setMem_mem (s : State) (m : Memory) : (s.setMem m).mem = m := rfl

/-! ### `advance` -/

@[simp] theorem State.advance_regs (s : State) (n : Nat) : (s.advance n).regs = s.regs := rfl
@[simp] theorem State.advance_reg (s : State) (n : Nat) (r : RegNum) : (s.advance n).reg r = s.reg r := rfl
@[simp] theorem State.advance_pc (s : State) (n : Nat) : (s.advance n).pc = s.pc + BitVec.ofNat 21 n := rfl
@[simp] theorem State.advance_codeSize (s : State) (n : Nat) : (s.advance n).codeSize = s.codeSize := rfl
@[simp] theorem State.advance_status (s : State) (n : Nat) : (s.advance n).status = s.status := rfl
@[simp] theorem State.advance_faultCause (s : State) (n : Nat) : (s.advance n).faultCause = s.faultCause := rfl
@[simp] theorem State.advance_faultInfo (s : State) (n : Nat) : (s.advance n).faultInfo = s.faultInfo := rfl
@[simp] theorem State.advance_mem (s : State) (n : Nat) : (s.advance n).mem = s.mem := rfl

/-! ### `halt` -/

@[simp] theorem State.halt_regs (s : State) : s.halt.regs = s.regs := rfl
@[simp] theorem State.halt_reg (s : State) (r : RegNum) : s.halt.reg r = s.reg r := rfl
@[simp] theorem State.halt_pc (s : State) : s.halt.pc = s.pc := rfl
@[simp] theorem State.halt_codeSize (s : State) : s.halt.codeSize = s.codeSize := rfl
@[simp] theorem State.halt_status (s : State) : s.halt.status = .halted := rfl
@[simp] theorem State.halt_faultCause (s : State) : s.halt.faultCause = s.faultCause := rfl
@[simp] theorem State.halt_faultInfo (s : State) : s.halt.faultInfo = s.faultInfo := rfl
@[simp] theorem State.halt_mem (s : State) : s.halt.mem = s.mem := rfl

/-! ### `raise` -/

@[simp] theorem State.raise_regs (s : State) (e : Exn) : (s.raise e).regs = s.regs := by cases e <;> rfl
@[simp] theorem State.raise_reg (s : State) (e : Exn) (r : RegNum) : (s.raise e).reg r = s.reg r := by cases e <;> rfl
@[simp] theorem State.raise_pc (s : State) (e : Exn) : (s.raise e).pc = s.pc := by cases e <;> rfl
@[simp] theorem State.raise_codeSize (s : State) (e : Exn) : (s.raise e).codeSize = s.codeSize := by cases e <;> rfl
@[simp] theorem State.raise_status (s : State) (e : Exn) : (s.raise e).status = .faulted := by cases e <;> rfl
@[simp] theorem State.raise_mem (s : State) (e : Exn) : (s.raise e).mem = s.mem := by cases e <;> rfl
@[simp] theorem State.raise_unknownOpcode_faultCause (s : State) (op : Opcode) :
    (s.raise (.unknownOpcode op)).faultCause = .unknownOpcode := rfl
@[simp] theorem State.raise_unknownOpcode_faultInfo (s : State) (op : Opcode) :
    (s.raise (.unknownOpcode op)).faultInfo = .opcode op := rfl
@[simp] theorem State.raise_memoryBounds_faultCause (s : State) (addr : Nat) (kind : AccessKind) :
    (s.raise (.memoryBounds addr kind)).faultCause = .memoryBounds := rfl
@[simp] theorem State.raise_memoryBounds_faultInfo (s : State) (addr : Nat) (kind : AccessKind) :
    (s.raise (.memoryBounds addr kind)).faultInfo = .access addr kind := rfl

end Sys2Proof.Machine
end

