-- ==== Sys2Proof/Laws/Ops.lean ====
section
/-! SUPPORT. One lemma per shared operation that says once everything it can do. -/

namespace Sys2Proof.Machine

/-! ### Memory access -/

/-- `MemRead` raises on its own address, or gives the four bytes' integer. -/
theorem memRead_cases (m : Memory) (addr : Nat) :
    (Config.memSize < addr + 4 ∧ memRead m addr = .error (.memoryBounds addr .read)) ∨
      (addr + 4 ≤ Config.memSize ∧
        memRead m addr = .ok (BitVec.ofNat 32 (littleEndian (m.readBytes addr 4)))) := by
  unfold memRead
  split
  · next h => exact .inl ⟨h, rfl⟩
  · next h => exact .inr ⟨Nat.le_of_not_lt h, rfl⟩

/-- `MemWrite` raises on its own address, or stores the word's four bytes. -/
theorem memWrite_cases (m : Memory) (addr : Nat) (v : Word) :
    (Config.memSize < addr + 4 ∧ memWrite m addr v = .error (.memoryBounds addr .write)) ∨
      (addr + 4 ≤ Config.memSize ∧ memWrite m addr v = .ok (m.writeBytes addr (toBytes 4 v.toNat))) := by
  unfold memWrite
  split
  · next h => exact .inl ⟨h, rfl⟩
  · next h => exact .inr ⟨Nat.le_of_not_lt h, rfl⟩

theorem memRead_inBounds (m : Memory) {addr : Nat} (h : addr + 4 ≤ Config.memSize) :
    memRead m addr = .ok (BitVec.ofNat 32 (littleEndian (m.readBytes addr 4))) :=
  if_neg (Nat.not_lt.mpr h)

theorem memWrite_inBounds (m : Memory) {addr : Nat} (v : Word) (h : addr + 4 ≤ Config.memSize) :
    memWrite m addr v = .ok (m.writeBytes addr (toBytes 4 v.toNat)) :=
  if_neg (Nat.not_lt.mpr h)

theorem memRead_outOfBounds (m : Memory) {addr : Nat} (h : Config.memSize < addr + 4) :
    memRead m addr = .error (.memoryBounds addr .read) :=
  if_pos h

theorem memWrite_outOfBounds (m : Memory) {addr : Nat} (v : Word) (h : Config.memSize < addr + 4) :
    memWrite m addr v = .error (.memoryBounds addr .write) :=
  if_pos h

/-- One byte after a word was stored: byte `b - addr` of the word inside, the old byte outside. -/
theorem readByte_storedWord (m : Memory) (addr : Nat) (v : Word) (b : Nat) :
    (m.writeBytes addr (toBytes 4 v.toNat)).readByte b =
      if addr ≤ b ∧ b < addr + 4 then BitVec.ofNat 8 (v.toNat / 256 ^ (b - addr)) else m.readByte b := by
  rw [Memory.readByte_writeBytes]
  by_cases h : addr ≤ b ∧ b < addr + 4
  · have h' : addr ≤ b ∧ b - addr < (toBytes 4 v.toNat).length := by
      rw [length_toBytes]
      omega
    rw [dif_pos h', if_pos h, getElem_toBytes]
  · have h' : ¬(addr ≤ b ∧ b - addr < (toBytes 4 v.toNat).length) := by
      rw [length_toBytes]
      omega
    rw [dif_neg h', if_neg h]

/-- Storing a word inside memory keeps the canonical form. -/
theorem wf_storedWord {m : Memory} (hm : m.wf) {addr : Nat} (v : Word) (h : addr + 4 ≤ Config.memSize) :
    (m.writeBytes addr (toBytes 4 v.toNat)).wf :=
  Memory.wf_writeBytes hm _ (by rw [length_toBytes]; exact h)

/-- A direct address and the three bytes after it always exist (R29). -/
theorem directAddress_inBounds (memAddr : MemAddr) : directAddress memAddr + 4 ≤ Config.memSize := by
  have := memAddr.isLt
  simp only [directAddress, Config.memSize]
  omega

/-- The range of a base-plus-offset address (R69). -/
theorem indirectAddress_le (s : State) (base : RegNum) (offset : Offset) :
    indirectAddress s base offset ≤ 2 ^ 32 + 126 := by
  have h₁ := (s.reg base).isLt
  have h₂ := offset.isLt
  unfold indirectAddress
  omega

/-! ### What each meaning can do -/

/-- LoadConst does one thing (R65). -/
theorem execLoadconst_eq (c : ConstVal) (r : RegNum) (s : State) :
    execLoadconst c r s = .next ((s.setReg r (constantOperand c)).advance 5) := rfl

/-- ReadMem does one thing: its bounds test always passes (R29, R66). -/
theorem execReadmem_eq (a : MemAddr) (r : RegNum) (s : State) :
    execReadmem a r s =
      .next ((s.setReg r (BitVec.ofNat 32 (littleEndian (s.mem.readBytes (directAddress a) 4)))).advance 4) := by
  unfold execReadmem State.load
  rw [memRead_inBounds s.mem (directAddress_inBounds a)]
  rfl

/-- WriteMem does one thing: its bounds test always passes (R29, R67). -/
theorem execWritemem_eq (r : RegNum) (a : MemAddr) (s : State) :
    execWritemem r a s =
      .next ((s.setMem (s.mem.writeBytes (directAddress a) (toBytes 4 (s.reg r).toNat))).advance 4) := by
  unfold execWritemem State.store
  rw [memWrite_inBounds s.mem _ (directAddress_inBounds a)]
  rfl

/-- Popcnt does one of three things: it raises on the source, or on the destination, or copies the word (R68). -/
theorem execPopcnt_cases (b c : Offset) (d e : RegNum) (s : State) :
    (Config.memSize < indirectAddress s d c + 4 ∧
      execPopcnt b c d e s = .next (s.raise (.memoryBounds (indirectAddress s d c) .read))) ∨
    (indirectAddress s d c + 4 ≤ Config.memSize ∧ Config.memSize < indirectAddress s e b + 4 ∧
      execPopcnt b c d e s = .next (s.raise (.memoryBounds (indirectAddress s e b) .write))) ∨
    (indirectAddress s d c + 4 ≤ Config.memSize ∧ indirectAddress s e b + 4 ≤ Config.memSize ∧
      execPopcnt b c d e s =
        .next ((s.setMem (s.mem.writeBytes (indirectAddress s e b)
          (toBytes 4 (BitVec.ofNat 32 (littleEndian (s.mem.readBytes (indirectAddress s d c) 4))).toNat))).advance 4)) := by
  unfold execPopcnt State.load State.store
  rcases memRead_cases s.mem (indirectAddress s d c) with ⟨h, hr⟩ | ⟨h, hr⟩
  · exact .inl ⟨h, by rw [hr]; rfl⟩
  · rcases memWrite_cases s.mem (indirectAddress s e b)
      (BitVec.ofNat 32 (littleEndian (s.mem.readBytes (indirectAddress s d c) 4))) with ⟨h', hw⟩ | ⟨h', hw⟩
    · exact .inr (.inl ⟨h, h', by rw [hr]; simp only [Except.bind, hw]; rfl⟩)
    · exact .inr (.inr ⟨h, h', by rw [hr]; simp only [Except.bind, hw]; rfl⟩)

end Sys2Proof.Machine
end

