-- ==== Sys2Proof/Laws/PerInstr.lean ====
section
/-! SUPPORT. The per-instruction families of LAWS.json: facts about each instruction as syntax. -/

namespace Sys2Proof.Laws

/-- Every instruction's fields are in the ranges of R41, and validating its fields gives the instruction back (R55). -/
def FieldsInRange.Statement (i : Instr) : Prop :=
  i.wellFormed = true ∧ (RawInstr.ofInstr i).validate = some i

theorem FieldsInRange.popcnt (offsetB offsetC : Offset) (regD regE : RegNum) :
    FieldsInRange.Statement (.popcnt offsetB offsetC regD regE) := by
  have hb := offsetB.isLt
  have hc := offsetC.isLt
  have hd := regD.isLt
  have he := regE.isLt
  have hwf : Instr.wellFormed (.popcnt offsetB offsetC regD regE) = true := by
    simp [Instr.wellFormed, RawInstr.ofInstr, RawInstr.wellFormed]
    omega
  exact ⟨hwf, (if_pos hwf).trans (by simp [RawInstr.ofInstr])⟩

theorem FieldsInRange.loadconst (constVal : ConstVal) (reg : RegNum) :
    FieldsInRange.Statement (.loadconst constVal reg) := by
  have hc := constVal.isLt
  have hr := reg.isLt
  have hwf : Instr.wellFormed (.loadconst constVal reg) = true := by
    simp [Instr.wellFormed, RawInstr.ofInstr, RawInstr.wellFormed]
    omega
  exact ⟨hwf, (if_pos hwf).trans (by simp [RawInstr.ofInstr])⟩

theorem FieldsInRange.readmem (memAddr : MemAddr) (reg : RegNum) :
    FieldsInRange.Statement (.readmem memAddr reg) := by
  have ha := memAddr.isLt
  have hr := reg.isLt
  have hwf : Instr.wellFormed (.readmem memAddr reg) = true := by
    simp [Instr.wellFormed, RawInstr.ofInstr, RawInstr.wellFormed]
    omega
  exact ⟨hwf, (if_pos hwf).trans (by simp [RawInstr.ofInstr])⟩

theorem FieldsInRange.writemem (reg : RegNum) (memAddr : MemAddr) :
    FieldsInRange.Statement (.writemem reg memAddr) := by
  have ha := memAddr.isLt
  have hr := reg.isLt
  have hwf : Instr.wellFormed (.writemem reg memAddr) = true := by
    simp [Instr.wellFormed, RawInstr.ofInstr, RawInstr.wellFormed]
    omega
  exact ⟨hwf, (if_pos hwf).trans (by simp [RawInstr.ofInstr])⟩

end Sys2Proof.Laws
end

