-- ==== Sys2Proof/Laws/Step.lean ====
section
/-! SUPPORT. What one step can do, said once. -/

namespace Sys2Proof.Machine

/-- Every instruction's effect, said once: exec always answers a next state, which is a fault entry for a `MemoryBoundsError`
(Popcnt only), or the state with at most one register or one word of memory written and `pc` past the instruction. -/
theorem exec_cases (i : Instr) (s : State) :
    (∃ addr kind, Config.memSize < addr + 4 ∧ addr ≤ 2 ^ 32 + 126 ∧ (∃ b c d e, i = .popcnt b c d e) ∧
      exec i s = .next (s.raise (.memoryBounds addr kind))) ∨
    (∃ r v, writtenRegs i = [r] ∧ storeAddress s i = none ∧ exec i s = .next ((s.setReg r v).advance i.length)) ∨
    (∃ addr v, addr + 4 ≤ Config.memSize ∧ writtenRegs i = [] ∧ storeAddress s i = some addr ∧
      exec i s = .next ((s.setMem (s.mem.writeBytes addr (toBytes 4 (BitVec.toNat (w := 32) v)))).advance i.length)) := by
  cases i with
  | popcnt b c d e =>
    rcases execPopcnt_cases b c d e s with ⟨h, he⟩ | ⟨_, h, he⟩ | ⟨_, h, he⟩
    · exact .inl ⟨_, _, h, indirectAddress_le s d c, ⟨b, c, d, e, rfl⟩, he⟩
    · exact .inl ⟨_, _, h, indirectAddress_le s e b, ⟨b, c, d, e, rfl⟩, he⟩
    · exact .inr (.inr ⟨_, _, h, rfl, rfl, he⟩)
  | loadconst c r => exact .inr (.inl ⟨r, _, rfl, rfl, execLoadconst_eq c r s⟩)
  | readmem a r => exact .inr (.inl ⟨r, _, rfl, rfl, execReadmem_eq a r s⟩)
  | writemem r a => exact .inr (.inr ⟨_, _, directAddress_inBounds a, rfl, rfl, execWritemem_eq r a s⟩)

/-- Everything one cycle of a Running machine can answer, in the order of its tests (R57, R78). -/
theorem cycle_cases (s : State) :
    (s.codeSize.toNat ≤ s.pc.toNat ∧ cycle s = .next s.halt) ∨
    (s.pc.toNat < s.codeSize.toNat ∧ Config.memSize < s.codeSize.toNat ∧ cycle s = .fault .codeSizeOutOfRange) ∨
    (s.pc.toNat < s.codeSize.toNat ∧ s.codeSize.toNat ≤ Config.memSize ∧
      ((decode s.window = .truncated ∧ cycle s = .next s.halt) ∨
       (∃ op, decode s.window = .unknownOpcode op ∧ cycle s = .next (s.raise (.unknownOpcode op))) ∨
       (∃ i n, decode s.window = .instruction i n ∧ cycle s = exec i s))) := by
  unfold cycle
  by_cases hend : s.codeSize.toNat ≤ s.pc.toNat
  · exact .inl ⟨hend, if_pos hend⟩
  · have hlt : s.pc.toNat < s.codeSize.toNat := Nat.lt_of_not_le hend
    rw [if_neg hend]
    by_cases hbig : Config.memSize < s.codeSize.toNat
    · exact .inr (.inl ⟨hlt, hbig, if_pos hbig⟩)
    · rw [if_neg hbig]
      refine .inr (.inr ⟨hlt, Nat.le_of_not_lt hbig, ?_⟩)
      cases hd : decode s.window with
      | truncated => exact .inl ⟨rfl, rfl⟩
      | unknownOpcode op => exact .inr (.inl ⟨op, rfl, rfl⟩)
      | instruction i n => exact .inr (.inr ⟨i, n, rfl, rfl⟩)

theorem step_running {s : State} (h : s.status = .running) : step s = cycle s := by
  unfold step
  rw [h]

theorem step_ended {s : State} (h : s.status ≠ .running) : step s = .next s := by
  unfold step
  cases hs : s.status with
  | running => exact absurd hs h
  | halted => rfl
  | faulted => rfl

/-- The window never reaches past the end of the code. -/
theorem length_window (s : State) : s.window.length = min 5 (s.codeSize.toNat - s.pc.toNat) :=
  Memory.length_readBytes _ _ _

/-- A decoded instruction ends at or before the end of the code (R60). -/
theorem decoded_fits {s : State} {i : Instr} {n : Nat} (h : decode s.window = .instruction i n) :
    n = i.length ∧ s.pc.toNat + n ≤ s.codeSize.toNat := by
  obtain ⟨h₁, h₂⟩ := decode_instruction h
  rw [length_window] at h₂
  rcases Instr.length_cases i with hi | hi <;> exact ⟨h₁, by omega⟩

end Sys2Proof.Machine
end

