-- ==== Sys2Proof/Tests/Slice0.lean ====
section
/-! SUPPORT. Tests. Expected results are taken from spec/95_test_vectors.md (S, V and P rows, named at each test), from the
layouts R37 to R40, or from hand calculation out of a rule. At the end, one witness for the hypotheses of each statement. -/

namespace Sys2Proof.Tests

open Sys2Proof.Machine

/-- The next state of an outcome, if there is one. -/
def nextOf (o : Host.Outcome State Fault Refusal) : Option State :=
  match o with
  | .next s => some s
  | .fault _ => none
  | .refused _ => none

/-- A machine with a program loaded, some registers set and some bytes stored: the harness of R19. -/
def machine (program : List Byte) (regs : List (RegNum × Word)) (cells : List (Nat × List Byte)) : State :=
  let loaded := match loadProgram program with
    | .ok s => s
    | .error _ => State.reset
  let filled := cells.foldl (fun s c => s.setMem (s.mem.writeBytes c.1 c.2)) loaded
  regs.foldl (fun s r => s.setReg r.1 r.2) filled

/-- What a test reads of one step: a register, a byte sequence, `pc`, the status and the fault registers. -/
structure Seen where
  reg : Word
  bytes : List Byte
  pc : CodePos
  status : Status
  cause : FaultCause
  info : FaultInfo
  deriving DecidableEq, Repr

/-- Register `r` and the `n` bytes at `a`, as the next state of an outcome holds them. -/
def seen (o : Host.Outcome State Fault Refusal) (r : RegNum) (a n : Nat) : Option Seen :=
  (nextOf o).map (fun t => ⟨t.reg r, t.mem.readBytes a n, t.pc, t.status, t.faultCause, t.faultInfo⟩)

/-! ### WellFormed: every check refuses an ill-formed term (S3, S4) -/

theorem test_wellFormed_refuses_loadconst :
    (RawInstr.loadconst (2 ^ 29) 0).wellFormed = false ∧ (RawInstr.loadconst 1 64).wellFormed = false ∧
      (RawInstr.loadconst (2 ^ 29 - 1) 63).wellFormed = true := by decide

theorem test_wellFormed_refuses_readmem :
    (RawInstr.readmem (2 ^ 17) 0).wellFormed = false ∧ (RawInstr.readmem 0 64).wellFormed = false ∧
      (RawInstr.readmem (2 ^ 17 - 1) 63).wellFormed = true := by decide

theorem test_wellFormed_refuses_writemem :
    (RawInstr.writemem 64 0).wellFormed = false ∧ (RawInstr.writemem 0 (2 ^ 17)).wellFormed = false ∧
      (RawInstr.writemem 63 (2 ^ 17 - 1)).wellFormed = true := by decide

theorem test_wellFormed_refuses_popcnt :
    (RawInstr.popcnt 128 0 0 0).wellFormed = false ∧ (RawInstr.popcnt 0 128 0 0).wellFormed = false ∧
      (RawInstr.popcnt 0 0 64 0).wellFormed = false ∧ (RawInstr.popcnt 0 0 0 64).wellFormed = false ∧
      (RawInstr.popcnt 127 127 63 63).wellFormed = true := by decide

theorem test_validate_refuses : (RawInstr.loadconst (2 ^ 29) 0).validate = none := by decide

/-! ### Decoding: words written out from the layouts, every field boundary (V1) -/

theorem test_decode_loadconst :
    decode [0x03#8, 0x00#8, 0x00#8, 0x00#8, 0x00#8] = .instruction (.loadconst 0#29 0#6) 5 ∧
    decode [0x0B#8, 0x00#8, 0x00#8, 0x00#8, 0x00#8] = .instruction (.loadconst 1#29 0#6) 5 ∧
    decode [0x03#8, 0x00#8, 0x00#8, 0x80#8, 0x00#8] = .instruction (.loadconst 268435456#29 0#6) 5 ∧
    decode [0x53#8, 0x01#8, 0x00#8, 0x00#8, 0x00#8] = .instruction (.loadconst 42#29 0#6) 5 ∧
    decode [0x03#8, 0x00#8, 0x00#8, 0x00#8, 0x01#8] = .instruction (.loadconst 0#29 1#6) 5 ∧
    decode [0x03#8, 0x00#8, 0x00#8, 0x00#8, 0x20#8] = .instruction (.loadconst 0#29 32#6) 5 := by decide

theorem test_decode_readmem :
    decode [0x0D#8, 0x00#8, 0x00#8, 0x00#8] = .instruction (.readmem 1#17 0#6) 4 ∧
    decode [0x05#8, 0x00#8, 0x08#8, 0x00#8] = .instruction (.readmem 65536#17 0#6) 4 ∧
    decode [0x05#8, 0x00#8, 0x10#8, 0x00#8] = .instruction (.readmem 0#17 1#6) 4 ∧
    decode [0x05#8, 0x00#8, 0x00#8, 0x02#8] = .instruction (.readmem 0#17 32#6) 4 ∧
    decode [0x25#8, 0x03#8, 0x10#8, 0x00#8] = .instruction (.readmem 100#17 1#6) 4 := by decide

theorem test_decode_writemem :
    decode [0x0E#8, 0x00#8, 0x00#8, 0x00#8] = .instruction (.writemem 1#6 0#17) 4 ∧
    decode [0x06#8, 0x01#8, 0x00#8, 0x00#8] = .instruction (.writemem 32#6 0#17) 4 ∧
    decode [0x06#8, 0x02#8, 0x00#8, 0x00#8] = .instruction (.writemem 0#6 1#17) 4 ∧
    decode [0x06#8, 0x00#8, 0x00#8, 0x02#8] = .instruction (.writemem 0#6 65536#17) 4 ∧
    decode [0x06#8, 0xC8#8, 0x00#8, 0x00#8] = .instruction (.writemem 0#6 100#17) 4 := by decide

theorem test_decode_popcnt :
    decode [0x0A#8, 0x00#8, 0x00#8, 0x00#8] = .instruction (.popcnt 1#7 0#7 0#6 0#6) 4 ∧
    decode [0x02#8, 0x02#8, 0x00#8, 0x00#8] = .instruction (.popcnt 64#7 0#7 0#6 0#6) 4 ∧
    decode [0x02#8, 0x04#8, 0x00#8, 0x00#8] = .instruction (.popcnt 0#7 1#7 0#6 0#6) 4 ∧
    decode [0x02#8, 0x00#8, 0x01#8, 0x00#8] = .instruction (.popcnt 0#7 64#7 0#6 0#6) 4 ∧
    decode [0x02#8, 0x00#8, 0x02#8, 0x00#8] = .instruction (.popcnt 0#7 0#7 1#6 0#6) 4 ∧
    decode [0x02#8, 0x00#8, 0x40#8, 0x00#8] = .instruction (.popcnt 0#7 0#7 32#6 0#6) 4 ∧
    decode [0x02#8, 0x00#8, 0x80#8, 0x00#8] = .instruction (.popcnt 0#7 0#7 0#6 1#6) 4 ∧
    decode [0x02#8, 0x00#8, 0x00#8, 0x10#8] = .instruction (.popcnt 0#7 0#7 0#6 32#6) 4 := by decide

/-- V1 read the other way, one row of each format. -/
theorem test_encode :
    encode (.loadconst 536870911#29 63#6) = [0xFB#8, 0xFF#8, 0xFF#8, 0xFF#8, 0x3F#8] ∧
    encode (.readmem 131071#17 63#6) = [0xFD#8, 0xFF#8, 0xFF#8, 0x03#8] ∧
    encode (.writemem 63#6 131071#17) = [0xFE#8, 0xFF#8, 0xFF#8, 0x03#8] ∧
    encode (.popcnt 10#7 5#7 2#6 3#6) = [0x52#8, 0x14#8, 0x84#8, 0x01#8] := by decide

/-- V2: padding bits set. -/
theorem test_decode_padding :
    decode [0x53#8, 0x01#8, 0x00#8, 0x00#8, 0xC0#8] = .instruction (.loadconst 42#29 0#6) 5 ∧
    decode [0x25#8, 0x03#8, 0x10#8, 0xFC#8] = .instruction (.readmem 100#17 1#6) 4 ∧
    decode [0x06#8, 0xC8#8, 0x00#8, 0xFC#8] = .instruction (.writemem 0#6 100#17) 4 ∧
    decode [0x52#8, 0x14#8, 0x84#8, 0xE1#8] = .instruction (.popcnt 10#7 5#7 2#6 3#6) 4 := by decide

/-- V3: unknown opcodes. -/
theorem test_decode_unknown :
    decode [0x00#8, 0x00#8, 0x00#8, 0x00#8] = .unknownOpcode 0#3 ∧
    decode [0x01#8, 0x00#8, 0x00#8, 0x00#8] = .unknownOpcode 1#3 ∧
    decode [0x04#8, 0x00#8, 0x00#8, 0x00#8] = .unknownOpcode 4#3 ∧
    decode [0xFF#8, 0xFF#8, 0xFF#8, 0xFF#8] = .unknownOpcode 7#3 ∧
    decode [0x08#8, 0x00#8, 0x00#8, 0x00#8] = .unknownOpcode 0#3 := by decide

/-- V3: truncation, tested before the opcode, and decoding at an odd position. -/
theorem test_decode_truncated :
    decode [0x07#8] = .truncated ∧ decode [0x00#8, 0x00#8, 0x00#8] = .truncated ∧
    decode [0x03#8, 0x00#8, 0x00#8, 0x00#8] = .truncated ∧
    decodeOne [0x0B#8, 0x00#8, 0x00#8, 0x00#8, 0x00#8, 0x25#8, 0x03#8] 5 = .truncated ∧
    decodeOne [0x0B#8, 0x00#8, 0x00#8, 0x00#8, 0x00#8, 0x25#8, 0x03#8, 0x10#8, 0x00#8] 5 =
      .instruction (.readmem 100#17 1#6) 4 := by decide

/-- The opcode table's bit numbering: W of V1 rows 8 and 32, and an illegal word. -/
theorem test_decodeTableWord :
    decodeTableWord 40 0x3FFFFFFFFB = some (.loadconst 536870911#29 63#6) ∧
    decodeTableWord 32 0x01841452 = some (.popcnt 10#7 5#7 2#6 3#6) ∧
    decodeTableWord 32 0x00000004 = none := by decide

/-! ### One step of each instruction -/

/-- V4 row 2: the largest constant into the last register. -/
theorem test_step_loadconst_largest :
    seen (step (machine [0xFB#8, 0xFF#8, 0xFF#8, 0xFF#8, 0x3F#8] [] [])) 63#6 0 0 =
      some ⟨0x1FFFFFFF#32, [], 5#21, .running, .none, .zero⟩ := by decide

/-- V4 row 3: all 32 bits of the old value are replaced. -/
theorem test_step_loadconst_replaces :
    seen (step (machine [0x03#8, 0x00#8, 0x00#8, 0x00#8, 0x01#8] [(1#6, 0xFFFFFFFF#32)] [])) 1#6 0 0 =
      some ⟨0x00000000#32, [], 5#21, .running, .none, .zero⟩ := by decide

/-- V5 row 4: a misaligned little-endian read. -/
theorem test_step_readmem_misaligned :
    seen (step (machine [0x2D#8, 0x03#8, 0x10#8, 0x00#8] [] [(100, [0x44#8, 0x33#8, 0x22#8, 0x11#8, 0xAA#8])])) 1#6 0 0 =
      some ⟨0xAA112233#32, [], 4#21, .running, .none, .zero⟩ := by decide

/-- V5 row 7: the instruction reads its own bytes (rests on D1). -/
theorem test_step_readmem_reads_program :
    seen (step (machine [0x05#8, 0x00#8, 0x10#8, 0x00#8] [] [])) 1#6 0 0 =
      some ⟨0x00100005#32, [], 4#21, .running, .none, .zero⟩ := by decide

/-- V5 row 2: the byte order of a store. -/
theorem test_step_writemem_byte_order :
    seen (step (machine [0x06#8, 0xC8#8, 0x00#8, 0x00#8] [(0#6, 0x11223344#32)] [])) 0#6 100 4 =
      some ⟨0x11223344#32, [0x44#8, 0x33#8, 0x22#8, 0x11#8], 4#21, .running, .none, .zero⟩ := by decide

/-- V5 row 5: the highest direct address, past 0x20000 in its upper bytes. -/
theorem test_step_writemem_highest :
    seen (step (machine [0xFE#8, 0xFF#8, 0xFF#8, 0x03#8] [(63#6, 0x1FFFFFFF#32)] [])) 0#6 131071 4 =
      some ⟨0#32, [0xFF#8, 0xFF#8, 0xFF#8, 0x1F#8], 4#21, .running, .none, .zero⟩ := by decide

/-- V6 row 2: all ones arrive as all ones, not as 32. POPCNT COUNTS NO BITS (C4, U10). -/
theorem test_step_popcnt_copies_not_counts :
    seen (step (machine [0x52#8, 0x14#8, 0x84#8, 0x01#8] [(2#6, 1000#32), (3#6, 2000#32)]
      [(1005, [0xFF#8, 0xFF#8, 0xFF#8, 0xFF#8])])) 3#6 2010 4 =
      some ⟨2000#32, [0xFF#8, 0xFF#8, 0xFF#8, 0xFF#8], 4#21, .running, .none, .zero⟩ := by decide

/-- V6 row 3: forward overlap, the source read whole before the write. -/
theorem test_step_popcnt_overlap :
    seen (step (machine [0x12#8, 0x00#8, 0x82#8, 0x00#8] [(1#6, 400#32)]
      [(400, [0x44#8, 0x33#8, 0x22#8, 0x11#8])])) 1#6 400 6 =
      some ⟨400#32, [0x44#8, 0x33#8, 0x44#8, 0x33#8, 0x22#8, 0x11#8], 4#21, .running, .none, .zero⟩ := by decide

/-! ### Faults and halts -/

/-- V6 row 7: a straddling destination faults on the write and leaves `pc` and memory. -/
theorem test_step_popcnt_write_fault :
    seen (step (machine [0x0A#8, 0x00#8, 0x84#8, 0x00#8] [(1#6, 0xFFFFC#32), (2#6, 300#32)]
      [(300, [0x23#8, 0x01#8])])) 1#6 0xFFFFC 4 =
      some ⟨0xFFFFC#32, [0#8, 0#8, 0#8, 0#8], 0#21, .faulted, .memoryBounds, .access 0xFFFFD .write⟩ := by decide

/-- V6 row 11: the sum does not wrap to 4 (D5). -/
theorem test_step_popcnt_no_wrap :
    seen (step (machine [0x02#8, 0x14#8, 0x02#8, 0x01#8] [(1#6, 0xFFFFFFFF#32)] [])) 2#6 0 0 =
      some ⟨0#32, [], 0#21, .faulted, .memoryBounds, .access 0x100000004 .read⟩ := by decide

/-- V7: an illegal opcode with four bytes left faults. -/
theorem test_step_unknown_opcode :
    seen (step (machine [0x07#8, 0x00#8, 0x00#8, 0x00#8] [] [])) 0#6 0 0 =
      some ⟨0#32, [], 0#21, .faulted, .unknownOpcode, .opcode 7#3⟩ := by decide

/-- V7: truncation wins over the unknown opcode (C2). -/
theorem test_step_truncated_illegal_halts :
    seen (step (machine [0x00#8, 0x00#8, 0x00#8] [] [])) 0#6 0 0 =
      some ⟨0#32, [], 0#21, .halted, .none, .zero⟩ := by decide

/-- V7: the empty program halts at once, and a Halted machine stays as it is. -/
theorem test_step_reset_halts :
    step State.reset = .next State.reset.halt ∧ step State.reset.halt = .next State.reset.halt := ⟨rfl, rfl⟩

/-- The two control registers' codes (R14, R76). -/
theorem test_codes :
    Status.running.code = 0#2 ∧ Status.halted.code = 1#2 ∧ Status.faulted.code = 2#2 ∧
      FaultCause.none.code = 0#2 ∧ FaultCause.unknownOpcode.code = 1#2 ∧ FaultCause.memoryBounds.code = 2#2 := by decide

/-- The host's hook on the reset state: V4 row 1's word runs as the first instruction. -/
theorem test_withFetchWord :
    seen (step (State.reset.withFetchWord 40 0x0000000153)) 0#6 0 0 =
      some ⟨42#32, [], 5#21, .running, .none, .zero⟩ := by decide

/-- A Running machine before P8's WriteMem, moved to address 0, and its following LoadConst. -/
def beforeP8Store : State :=
  machine [0x06#8, 0x08#8, 0x00#8, 0x00#8, 0x0B#8, 0x00#8, 0x00#8, 0x00#8, 0x07#8] [(0#6, 43#32)] []

/-- P8 steps 2 and 3, moved to address 0: the next step runs the stored word with the old fifth byte (rests on D2). -/
theorem test_step_P8 :
    (nextOf (step beforeP8Store)).bind (fun t => seen (step t) 7#6 4 5) =
      some ⟨5#32, [0x2B#8, 0x00#8, 0x00#8, 0x00#8, 0x07#8], 9#21, .running, .none, .zero⟩ := by decide

/-- The dump of 99 .. 107 lists the words at 100 and 104 (R84). -/
theorem test_dump :
    dump (machine [] [] [(100, [0x2A#8, 0x00#8, 0x00#8, 0x00#8, 0x07#8])]) 99 107 = [(100, 42#32), (104, 7#32)] := by
  decide

/-! ### Assembler (S3, S4, P1, P2) -/

/-- What a source text assembles to, as bytes; none where it is rejected. -/
def assembled (text : String) : Option (List Byte) :=
  match assembleBinary text with
  | .ok bytes => some bytes
  | .error _ => none

/-- P1's source and bytes. -/
theorem test_assemble_P1 :
    assembled "# P1\nloadconst 42, r0\nwritemem  r0, 100\nreadmem   100, r1\n" =
      some [0x53#8, 0x01#8, 0x00#8, 0x00#8, 0x00#8, 0x06#8, 0xC8#8, 0x00#8, 0x00#8, 0x25#8, 0x03#8, 0x10#8, 0x00#8] := by
  decide

/-- P2's first and last lines, with the other comment marker, a blank line and capitals. -/
theorem test_assemble_P2 :
    assembled "; P2\n\nLoadConst 0x3E8, R2\npopcnt    10, 5, r2, r3" =
      some [0x43#8, 0x1F#8, 0x00#8, 0x00#8, 0x02#8, 0x52#8, 0x14#8, 0x84#8, 0x01#8] := by decide

/-- S3 and S4: range rejection, and D15: operand count, a token that is no number, an unknown mnemonic. -/
theorem test_assemble_rejects :
    assembled "loadconst 536870912, r0" = none ∧ assembled "loadconst 1, r64" = none ∧
      assembled "popcnt 128, 0, r0, r0" = none ∧ assembled "readmem 131072, r0" = none ∧
      assembled "writemem r64, 0" = none ∧ assembled "readmem 0" = none ∧ assembled "readmem x, r0" = none ∧
      assembled "jump 0" = none ∧ assembled "readmem 131071, r0" = some [0xFD#8, 0xFF#8, 0x0F#8, 0x00#8] := by decide

/-! ### Witnesses: for each statement with hypotheses, data that meet them together -/

/-- A Running machine before a legal LoadConst. -/
def beforeLoadconst : State := machine [0x53#8, 0x01#8, 0x00#8, 0x00#8, 0x00#8] [] []

/-- A Running machine before a Popcnt in bounds. -/
def beforePopcnt : State :=
  machine [0x52#8, 0x14#8, 0x84#8, 0x01#8] [(2#6, 1000#32), (3#6, 2000#32)] [(1005, [0x07#8])]

/-- A Running machine before an illegal opcode, exactly four bytes from the end. -/
def beforeIllegal : State := machine [0x07#8, 0x00#8, 0x00#8, 0x00#8] [] []

/-- A Running machine before a WriteMem of a ReadMem's word over the four bytes that follow. -/
def beforeSelfModification : State :=
  machine [0x06#8, 0x08#8, 0x00#8, 0x00#8, 0x00#8, 0x00#8, 0x00#8, 0x00#8] [(0#6, 0x00100325#32)] []

theorem witness_PackInvertsDecodeWithoutPadding :
    decode [0xFB#8, 0xFF#8, 0xFF#8, 0xFF#8, 0xFF#8] = .instruction (.loadconst 536870911#29 63#6) 5 := by decide

theorem witness_LengthFollowsOpcodeAlone :
    decode [0x02#8, 0x00#8, 0x00#8, 0x00#8] = .instruction (.popcnt 0#7 0#7 0#6 0#6) 4 := by decide

theorem witness_PaddingBitsIgnored :
    (0x03#8).toNat % 8 = 3 ∧ (0x05#8).toNat % 8 = 5 ∧ (0x06#8).toNat % 8 = 6 ∧ (0x02#8).toNat % 8 = 2 := by decide

theorem witness_DecoderFollowsItsSteps : 5 < [0x0B#8, 0x00#8, 0x00#8, 0x00#8, 0x00#8, 0x25#8].length := by decide

theorem witness_OpcodeAloneDecidesLegality :
    ([0x03#8, 0x00#8, 0x00#8, 0x00#8, 0x00#8].length = if (0x03#8).toNat % 8 = 3 then 5 else 4) ∧
      ([0x02#8, 0x00#8, 0x00#8, 0x00#8].length = if (0x02#8).toNat % 8 = 3 then 5 else 4) ∧ (0x02#8).toNat % 8 = 2 ∧
      ([0x07#8, 0x00#8, 0x00#8, 0x00#8].length = if (0x07#8).toNat % 8 = 3 then 5 else 4) ∧ (0x07#8).toNat % 8 = 7 := by
  decide

theorem witness_ValidationAcceptsExactlyTheRanges :
    (RawInstr.loadconst (2 ^ 29 - 1) 63).validate = some (.loadconst 536870911#29 63#6) := by decide

theorem witness_AssemblerKeepsSourceOrder : ∃ p, assembleLines ["loadconst 1, r2".toList] = .ok p := ⟨_, rfl⟩

theorem witness_MemReadIsBoundedLittleEndian : 0xFFFFC + 4 ≤ 2 ^ 20 ∧ 2 ^ 20 < 0xFFFFD + 4 := by decide

theorem witness_MemWriteStoresFourBytes :
    0xFFFFC + 4 ≤ 2 ^ 20 ∧ 2 ^ 20 < 0xFFFFD + 4 ∧ 3 < 4 ∧ (0xFFFFB < 0xFFFFC ∨ 0xFFFFC + 4 ≤ 0xFFFFB) := by decide

theorem witness_OverlappingReadsSeeTheBytes :
    memWrite [] 0xFFFF8 0x11223344#32 =
        .ok [(0xFFFF8, 0x44#8), (0xFFFF9, 0x33#8), (0xFFFFA, 0x22#8), (0xFFFFB, 0x11#8)] ∧
      memRead [(0xFFFF8, 0x44#8), (0xFFFF9, 0x33#8), (0xFFFFA, 0x22#8), (0xFFFFB, 0x11#8)] (0xFFFF8 + 1) =
        .ok 0x00112233#32 ∧
      0xFFFF8 + 4 ≤ 0xFFFFC := ⟨rfl, rfl, by decide⟩

/-- The ends of the overlap, three bytes below and three above, hand computed from R21 with the old bytes all 0. -/
theorem witness_OverlappingReadsSeeTheBytes_boundary :
    memRead [(0xFFFF8, 0x44#8), (0xFFFF9, 0x33#8), (0xFFFFA, 0x22#8), (0xFFFFB, 0x11#8)] (0xFFFF8 - 3) =
        .ok 0x44000000#32 ∧
      memRead [(0xFFFF8, 0x44#8), (0xFFFF9, 0x33#8), (0xFFFFA, 0x22#8), (0xFFFFB, 0x11#8)] (0xFFFF8 + 3) =
        .ok 0x00000011#32 ∧
      0xFFFFC + 4 = 2 ^ 20 := ⟨rfl, rfl, by decide⟩

theorem witness_CanonicalMemoriesEqualByReads :
    Memory.wf [(0, 0x01#8), (0xFFFFF, 0xFF#8)] ∧
      ∀ a, Memory.readByte [(0, 0x01#8), (0xFFFFF, 0xFF#8)] a = Memory.readByte [(0, 0x01#8), (0xFFFFF, 0xFF#8)] a :=
  ⟨by decide, fun _ => rfl⟩

theorem witness_PopcntCopiesWord :
    indirectAddress beforePopcnt 2#6 5#7 + 4 ≤ 2 ^ 20 ∧ indirectAddress beforePopcnt 3#6 10#7 + 4 ≤ 2 ^ 20 := by decide

/-- Both addresses at their largest in-bounds value. -/
theorem witness_PopcntCopiesWord_boundary :
    indirectAddress (machine [] [(1#6, 0xFFFFC#32)] []) 1#6 0#7 + 4 = 2 ^ 20 := by decide

theorem witness_PopcntOutOfBoundsFaults_read :
    2 ^ 20 < ((machine [] [(1#6, 0xFFFFD#32)] []).reg 1#6).toNat + (0#7).toNat + 4 := by decide

theorem witness_PopcntOutOfBoundsFaults_write :
    ((machine [] [(1#6, 0xFFFFC#32)] []).reg 1#6).toNat + (0#7).toNat + 4 ≤ 2 ^ 20 ∧
      2 ^ 20 < ((machine [] [(1#6, 0xFFFFC#32)] []).reg 1#6).toNat + (1#7).toNat + 4 := by decide

theorem witness_PopcntOntoItselfKeepsMemory :
    (machine [] [(1#6, 400#32)] [(403, [0x11#8, 0x22#8])]).mem.wf ∧
      indirectAddress (machine [] [(1#6, 400#32)] [(403, [0x11#8, 0x22#8])]) 1#6 3#7 = 403 := by decide

/-- For `OnlyTableRegistersAreWritten`, `UnreadRegisterHasNoInfluence` and `OnlyStoredWordChangesMemory`: Popcnt answers a next
state, register 5 is neither read nor written, and addresses 2009 and 2014 lie just outside the stored word. -/
theorem witness_frames :
    (∃ t, exec (.popcnt 10#7 5#7 2#6 3#6) beforePopcnt = .next t) ∧
      5#6 ∉ readRegs (.popcnt 10#7 5#7 2#6 3#6) ∧ 5#6 ∉ writtenRegs (.popcnt 10#7 5#7 2#6 3#6) ∧
      storeAddress beforePopcnt (.popcnt 10#7 5#7 2#6 3#6) = some 2010 ∧ 2009 < 2010 ∧ 2010 + 4 ≤ 2014 :=
  ⟨⟨_, rfl⟩, by decide, by decide, by decide, by decide, by decide⟩

/-- For `OnlyPopcntCanFault`: a status that does change. -/
theorem witness_OnlyPopcntCanFault :
    (nextOf (exec (.popcnt 0#7 0#7 1#6 2#6) (machine [] [(1#6, 0xFFFFD#32)] []))).map (fun t => t.status) =
      some .faulted := by decide

/-- For `UnreadRegisterHasNoInfluence` where the unread register is the one written. -/
theorem witness_UnreadRegisterHasNoInfluence_written :
    (∃ t, exec (.loadconst 42#29 0#6) beforeLoadconst = .next t) ∧ 0#6 ∉ readRegs (.loadconst 42#29 0#6) ∧
      0#6 ∈ writtenRegs (.loadconst 42#29 0#6) := ⟨⟨_, rfl⟩, by decide, by decide⟩

theorem witness_StepRunsDecodedInstruction :
    beforePopcnt.status = .running ∧ beforePopcnt.pc.toNat < beforePopcnt.codeSize.toNat ∧
      beforePopcnt.codeSize.toNat ≤ 2 ^ 20 ∧
      decode beforePopcnt.window = .instruction (.popcnt 10#7 5#7 2#6 3#6) 4 := by decide

theorem witness_WindowDecodesAsWholeProgram : beforePopcnt.pc.toNat < beforePopcnt.codeSize.toNat := by decide

theorem witness_EndOfCodeAndTruncationHalt_end :
    State.reset.status = .running ∧ State.reset.codeSize.toNat ≤ State.reset.pc.toNat := by decide

/-- One byte too few: a LoadConst opcode with four bytes left. -/
theorem witness_EndOfCodeAndTruncationHalt_truncation :
    let s := machine [0x03#8, 0x00#8, 0x00#8, 0x00#8] [] []
    s.status = .running ∧ s.pc.toNat < s.codeSize.toNat ∧ s.codeSize.toNat ≤ 2 ^ 20 ∧
      s.codeSize.toNat < s.pc.toNat + (if (s.mem.readByte s.pc.toNat).toNat % 8 = 3 then 5 else 4) := by decide

theorem witness_IllegalOpcodeFaults :
    beforeIllegal.status = .running ∧ beforeIllegal.pc.toNat + 4 ≤ beforeIllegal.codeSize.toNat ∧
      beforeIllegal.codeSize.toNat ≤ 2 ^ 20 ∧ (beforeIllegal.mem.readByte beforeIllegal.pc.toNat).toNat % 8 = 7 := by
  decide

theorem witness_EndedMachineStaysAsItIs :
    State.reset.halt.status = .halted ∧ (State.reset.raise (.unknownOpcode 0#3)).status = .faulted := by decide

theorem witness_PcAdvancesByDecodedLength :
    beforeLoadconst.wf ∧ beforeLoadconst.status = .running ∧
      beforeLoadconst.pc.toNat < beforeLoadconst.codeSize.toNat ∧
      decode beforeLoadconst.window = .instruction (.loadconst 42#29 0#6) 5 ∧
      (nextOf (step beforeLoadconst)).map (fun t => t.status) = some .running := by decide

/-- A word stored exactly over a following 4-byte instruction. -/
theorem witness_StoreIsSeenByNextFetch :
    beforeSelfModification.status = .running ∧ beforeSelfModification.codeSize.toNat ≤ 2 ^ 20 ∧
      decode beforeSelfModification.window = .instruction (.writemem 0#6 4#17) 4 ∧
      directAddress 4#17 = beforeSelfModification.pc.toNat + 4 ∧
      beforeSelfModification.pc.toNat + 4 + 4 = beforeSelfModification.codeSize.toNat ∧
      decode (toBytes 4 (beforeSelfModification.reg 0#6).toNat) = .instruction (.readmem 100#17 1#6) 4 := by decide

/-- P8 from its second instruction on, moved to address 0: the stored word and the old fifth byte spell LoadConst 5 to r7. -/
theorem witness_StoreIsSeenByNextFetch_P8 :
    beforeP8Store.status = .running ∧ beforeP8Store.codeSize.toNat ≤ 2 ^ 20 ∧
      decode beforeP8Store.window = .instruction (.writemem 0#6 4#17) 4 ∧
      directAddress 4#17 = beforeP8Store.pc.toNat + 4 ∧
      beforeP8Store.pc.toNat + 4 + 5 = beforeP8Store.codeSize.toNat ∧
      decode (toBytes 4 (beforeP8Store.reg 0#6).toNat ++ [beforeP8Store.mem.readByte (beforeP8Store.pc.toNat + 4 + 4)]) =
        .instruction (.loadconst 5#29 7#6) 5 := by decide

/-- A Popcnt as the storing instruction, with its destination at the largest address that exists. -/
theorem witness_StoreIsSeenByNextFetch_popcnt :
    let s := machine [0x02#8, 0x00#8, 0x84#8, 0x00#8] [(1#6, 0xFFFFC#32), (2#6, 300#32)] [(300, [0x23#8, 0x01#8])]
    s.status = .running ∧ s.codeSize.toNat ≤ 2 ^ 20 ∧
      decode s.window = .instruction (.popcnt 0#7 0#7 2#6 1#6) 4 ∧
      indirectAddress s 1#6 0#7 + 4 = 2 ^ 20 ∧ memRead s.mem (indirectAddress s 2#6 0#7) = .ok 0x00000123#32 :=
  ⟨rfl, by decide, rfl, by decide, rfl⟩

/-- For `StepKeepsCodeSize`, `StepKeepsWellFormed`, `StepKeepsFaultRecordLegal` and `WellFormedStepAnswersNext`: a well-formed
Running state with a legal fault record whose step answers a next state. -/
theorem witness_stepKeeps :
    beforePopcnt.wf ∧ beforePopcnt.faultRecordLegal ∧ ∃ t, step beforePopcnt = .next t :=
  ⟨by decide, trivial, ⟨_, rfl⟩⟩

/-- The same for a Faulted state. -/
theorem witness_stepKeeps_faulted :
    (beforeIllegal.raise (.unknownOpcode 7#3)).wf ∧ (beforeIllegal.raise (.unknownOpcode 7#3)).faultRecordLegal ∧
      ∃ t, step (beforeIllegal.raise (.unknownOpcode 7#3)) = .next t :=
  ⟨by decide, .inr (.inr (.inr rfl)), ⟨_, rfl⟩⟩

/-- For `FaultRegistersChangeOnlyOnFault` and `HaltsAndFaultsArePrecise`: a step that faults. -/
theorem witness_faultingStep :
    step beforeIllegal = .next (beforeIllegal.raise (.unknownOpcode 7#3)) ∧
      (beforeIllegal.raise (.unknownOpcode 7#3)).faultCause ≠ beforeIllegal.faultCause ∧
      (beforeIllegal.raise (.unknownOpcode 7#3)).status ≠ .running := ⟨rfl, by decide, by decide⟩

theorem witness_LoadLaysProgramOverZeroes :
    (List.replicate (2 ^ 20) 0x01#8).length ≤ 2 ^ 20 ∧ 2 ^ 20 < (List.replicate (2 ^ 20 + 1) 0x01#8).length := by
  simp only [List.length_replicate]
  decide

theorem witness_LoadedStateIsWellFormed :
    loadProgram [0x53#8, 0x01#8, 0x00#8, 0x00#8, 0x00#8] = .ok beforeLoadconst := rfl

theorem witness_RunEndsWithinStepBound : beforePopcnt.wf ∧ beforePopcnt.status = .running := by decide

theorem witness_PlacedWordIsRunNext :
    decodeTableWord 32 0x01841452 = some (.popcnt 10#7 5#7 2#6 3#6) ∧ State.reset.pc.toNat + 5 ≤ 2 ^ 20 ∧
      State.reset.codeSize.toNat ≤ 2 ^ 20 := by decide

end Sys2Proof.Tests
end

/-! SUPPORT AND CERTIFICATES. The Machine State: its data, what an instruction touches in it, and what
every step keeps. -/

namespace Sys2Proof.Machine

/-! ### Memory as data -/

/-- A memory whose listed addresses all lie above `a` lists nothing at `a`. -/
theorem Memory.readByte_of_forall_lt {m : Memory} {a : Nat} (h : ∀ c ∈ m, a < c.1) :
    m.readByte a = Config.unlistedByte := by
  induction m with
  | nil => rfl
  | cons c rest ih =>
    have hc : c.1 ≠ a := Nat.ne_of_gt (h c List.mem_cons_self)
    rw [Memory.readByte, if_neg hc, ih fun d hd => h d (List.mem_cons_of_mem c hd)]

/-- The reads of a canonical memory determine its cells: exactly those of the bytes that no unlisted address reads as. -/
theorem Memory.mem_iff_readByte {m : Memory} (hm : m.wf) (c : Host.Cell) :
    c ∈ m ↔ m.readByte c.1 = c.2 ∧ c.2 ≠ Config.unlistedByte := by
  obtain ⟨hrising, hlisted⟩ := hm
  induction m with
  | nil =>
    refine iff_of_false List.not_mem_nil ?_
    rintro ⟨hread, hne⟩
    exact hne hread.symm
  | cons d rest ih =>
    obtain ⟨hd, hrest⟩ := List.pairwise_cons.mp hrising
    have ih := ih hrest fun e he => hlisted e (List.mem_cons_of_mem d he)
    rw [List.mem_cons, Memory.readByte]
    by_cases hdc : d.1 = c.1
    · have hnot : c ∉ rest := fun hc => Nat.ne_of_lt (hd c hc) hdc
      rw [if_pos hdc, or_iff_left hnot]
      constructor
      · rintro rfl
        exact ⟨rfl, (hlisted c List.mem_cons_self).2⟩
      · rintro ⟨hv, -⟩
        exact (Prod.ext hdc hv).symm
    · have hne : c ≠ d := fun h => hdc (h ▸ rfl)
      rw [if_neg hdc, or_iff_right hne, ih]

/-- Settles O14: the cells are determined by the reads, and their order by the rising addresses. -/
theorem canonicalMemoriesEqualByReads : Obligations.CanonicalMemoriesEqualByReads := by
  intro m m' hm hm' hreads
  have hirrefl : Std.Irrefl (fun c d : Host.Cell => c.1 < d.1) := ⟨fun c => Nat.lt_irrefl c.1⟩
  have ⟨hrising, _⟩ := hm
  have ⟨hrising', _⟩ := hm'
  refine hrising.eq_of_mem_iff hrising' fun c => ?_
  rw [Memory.mem_iff_readByte hm, Memory.mem_iff_readByte hm', hreads]

/-! ### What an instruction writes -/

/-- Settles O22: of the three things `exec` can do, one writes a register, and it is the table's. -/
theorem onlyTableRegistersAreWritten : Obligations.OnlyTableRegistersAreWritten := by
  intro i s t ht q hq
  rcases exec_cases i s with ⟨addr, kind, _, _, _, he⟩ | ⟨r, v, hw, _, he⟩ | ⟨addr, v, _, _, _, he⟩
  · cases he.symm.trans ht
    exact State.raise_reg s _ q
  · cases he.symm.trans ht
    have hqr : q ≠ r := by simpa [hw] using hq
    rw [State.advance_reg, State.reg_setReg, if_neg hqr]
  · cases he.symm.trans ht
    rfl

/-- Settles O24: of the three things `exec` can do, one writes memory, and it is one word at the store address. -/
theorem onlyStoredWordChangesMemory : Obligations.OnlyStoredWordChangesMemory := by
  intro i s t ht a ha
  rcases exec_cases i s with ⟨addr, kind, _, _, _, he⟩ | ⟨r, v, _, _, he⟩ | ⟨addr, v, _, _, hdst, he⟩
  · cases he.symm.trans ht
    rw [State.raise_mem]
  · cases he.symm.trans ht
    rfl
  · cases he.symm.trans ht
    have hout : ¬(addr ≤ a ∧ a < addr + 4) := by
      have := ha addr hdst
      omega
    rw [State.advance_mem, State.setMem_mem, readByte_storedWord, if_neg hout]

/-! ### What an instruction reads: another value in a register goes through every operation that does not read it -/

theorem State.setReg_setReg_same (s : State) (r : RegNum) (v w : Word) :
    (s.setReg r v).setReg r w = s.setReg r w := by
  simp [State.setReg]

theorem State.setReg_setReg_comm (s : State) {q r : RegNum} (h : q ≠ r) (v w : Word) :
    (s.setReg q v).setReg r w = (s.setReg r w).setReg q v := by
  have hne : q.toNat ≠ r.toNat := fun e => h (BitVec.eq_of_toNat_eq e)
  simp [State.setReg, Vector.set_comm _ _ hne]

theorem State.reg_setReg_of_ne (s : State) {q r : RegNum} (h : r ≠ q) (v : Word) : (s.setReg q v).reg r = s.reg r := by
  rw [State.reg_setReg, if_neg h]

theorem indirectAddress_setReg_of_ne (s : State) {q base : RegNum} (h : base ≠ q) (v : Word) (offset : Offset) :
    indirectAddress (s.setReg q v) base offset = indirectAddress s base offset := by
  unfold indirectAddress
  rw [State.reg_setReg_of_ne s h]

theorem State.advance_setReg (s : State) (q : RegNum) (v : Word) (n : Nat) :
    (s.setReg q v).advance n = (s.advance n).setReg q v := rfl

theorem State.raise_setReg (s : State) (q : RegNum) (v : Word) (e : Exn) :
    (s.setReg q v).raise e = (s.raise e).setReg q v := by
  cases e <;> rfl

theorem State.load_setReg (s : State) (q : RegNum) (v : Word) (addr : Nat) :
    (s.setReg q v).load addr = s.load addr := rfl

theorem State.store_setReg (s : State) (q : RegNum) (v : Word) (addr : Nat) (w : Word) :
    (s.setReg q v).store addr w = (s.store addr w).map (fun t => t.setReg q v) := by
  unfold State.store
  rw [State.setReg_mem]
  cases memWrite s.mem addr w with
  | error e => rfl
  | ok m => rfl

/-- Completing carries the value over both ends of an execution: the advance and the fault entry. -/
theorem State.complete_setReg {s t : State} {n : Nat} {effect : Except Exn State} (q : RegNum) (v : Word)
    (h : s.complete n effect = .next t) :
    (s.setReg q v).complete n (effect.map (fun u => u.setReg q v)) = .next (t.setReg q v) := by
  cases effect with
  | ok u =>
    cases h
    rfl
  | error e =>
    cases h
    exact congrArg _ (State.raise_setReg s q v e)

theorem execWritemem_setReg {r q : RegNum} {a : MemAddr} {s t : State} (v : Word) (hr : r ≠ q)
    (h : execWritemem r a s = .next t) : execWritemem r a (s.setReg q v) = .next (t.setReg q v) := by
  unfold execWritemem
  rw [State.reg_setReg_of_ne s hr, State.store_setReg]
  exact State.complete_setReg q v h

theorem execPopcnt_setReg {b c : Offset} {d e q : RegNum} {s t : State} (v : Word) (hd : d ≠ q) (he : e ≠ q)
    (h : execPopcnt b c d e s = .next t) : execPopcnt b c d e (s.setReg q v) = .next (t.setReg q v) := by
  have hcopy : (s.load (indirectAddress s d c)).bind ((s.setReg q v).store (indirectAddress s e b)) =
      ((s.load (indirectAddress s d c)).bind (s.store (indirectAddress s e b))).map (fun u => u.setReg q v) := by
    cases s.load (indirectAddress s d c) with
    | error x => rfl
    | ok w => exact State.store_setReg s q v _ w
  unfold execPopcnt
  rw [indirectAddress_setReg_of_ne s hd, indirectAddress_setReg_of_ne s he, State.load_setReg, hcopy]
  exact State.complete_setReg q v h

/-- LoadConst and ReadMem: the write to `r` replaces the other value where `q` is `r`, and leaves it in place elsewhere. -/
theorem State.advance_setReg_setReg (s : State) (q r : RegNum) (v w : Word) (n : Nat) :
    ((s.setReg q v).setReg r w).advance n =
      if q ∈ [r] then (s.setReg r w).advance n else ((s.setReg r w).advance n).setReg q v := by
  by_cases h : q = r
  · subst h
    rw [if_pos List.mem_cons_self, State.setReg_setReg_same]
  · rw [if_neg (by simpa using h), State.setReg_setReg_comm s h, State.advance_setReg]

/-- Settles O23, by the instruction: the two that write a register read none, and the two that read registers
write none. -/
theorem unreadRegisterHasNoInfluence : Obligations.UnreadRegisterHasNoInfluence := by
  intro i s t q v hq ht
  cases i with
  | popcnt b c d e =>
    obtain ⟨hd, he⟩ : q ≠ d ∧ q ≠ e := by simpa [readRegs] using hq
    exact execPopcnt_setReg v hd.symm he.symm ht
  | loadconst c r =>
    cases ht
    exact congrArg _ (State.advance_setReg_setReg s q r v _ 5)
  | readmem a r =>
    cases (execReadmem_eq a r s).symm.trans ht
    exact (execReadmem_eq a r (s.setReg q v)).trans (congrArg _ (State.advance_setReg_setReg s q r v _ 4))
  | writemem r a =>
    have hr : q ≠ r := by simpa [readRegs] using hq
    exact execWritemem_setReg v hr.symm ht

/-! ### What a step does to the state -/

/-- What a step that answers a next state did to the state: nothing, a halt, a fault entry with a legal record, or the
effect of an instruction that fits into the code. -/
inductive StepEffect (s : State) : State → Prop
  | ended (hend : s.status ≠ .running) : StepEffect s s
  | halt (hrun : s.status = .running) : StepEffect s s.halt
  | fault (hrun : s.status = .running) (e : Exn) (hlegal : (s.raise e).faultRecordLegal) : StepEffect s (s.raise e)
  | writeReg (hrun : s.status = .running) (n : Nat) (hfit : s.pc.toNat + n ≤ s.codeSize.toNat) (r : RegNum) (v : Word) :
      StepEffect s ((s.setReg r v).advance n)
  | storeWord (hrun : s.status = .running) (n : Nat) (hfit : s.pc.toNat + n ≤ s.codeSize.toNat) (addr : Nat) (v : Word)
      (hmem : addr + 4 ≤ Config.memSize) :
      StepEffect s ((s.setMem (s.mem.writeBytes addr (toBytes 4 v.toNat))).advance n)

theorem stepEffect_of_exec {s t : State} {i : Instr} (hrun : s.status = .running)
    (hfit : s.pc.toNat + i.length ≤ s.codeSize.toNat) (h : exec i s = .next t) : StepEffect s t := by
  rcases exec_cases i s with ⟨addr, kind, hlo, hhi, _, he⟩ | ⟨r, v, _, _, he⟩ | ⟨addr, v, hmem, _, _, he⟩
  · cases he.symm.trans h
    exact .fault hrun _ ⟨hlo, hhi⟩
  · cases he.symm.trans h
    exact .writeReg hrun _ hfit r v
  · cases he.symm.trans h
    exact .storeWord hrun _ hfit addr v hmem

theorem stepEffect_of_cycle {s t : State} (hrun : s.status = .running) (h : cycle s = .next t) : StepEffect s t := by
  rcases cycle_cases s with ⟨_, hc⟩ | ⟨_, _, hc⟩ | ⟨_, _, ⟨_, hc⟩ | ⟨op, hd, hc⟩ | ⟨i, n, hd, hc⟩⟩
  · cases hc.symm.trans h
    exact .halt hrun
  · cases hc.symm.trans h
  · cases hc.symm.trans h
    exact .halt hrun
  · cases hc.symm.trans h
    exact .fault hrun _ (decode_unknownOpcode hd).1
  · obtain ⟨rfl, hfit⟩ := decoded_fits hd
    exact stepEffect_of_exec hrun hfit (hc.symm.trans h)

/-- Everything a step can do to the state, said once. -/
theorem stepEffect_of_step {s t : State} (h : step s = .next t) : StepEffect s t := by
  by_cases hrun : s.status = .running
  · exact stepEffect_of_cycle hrun ((step_running hrun).symm.trans h)
  · cases (step_ended hrun).symm.trans h
    exact .ended hrun

/-! ### Well-formed states -/

/-- The advance past an instruction that fits into the code does not wrap (R59). -/
theorem State.toNat_pc_advance {s : State} {n : Nat} (hfit : s.pc.toNat + n ≤ s.codeSize.toNat) :
    (s.advance n).pc.toNat = s.pc.toNat + n := by
  have := s.codeSize.isLt
  rw [State.advance_pc, BitVec.toNat_add, BitVec.toNat_ofNat]
  omega

theorem State.wf_halt {s : State} (h : s.wf) (hrun : s.status = .running) : s.halt.wf := by
  obtain ⟨hpc, hcode, hcause, hmem⟩ := h
  exact ⟨hpc, hcode, by simpa [hrun] using hcause, hmem⟩

theorem State.raise_faultCause_ne_none (s : State) (e : Exn) : (s.raise e).faultCause ≠ .none := by
  cases e <;> simp

theorem State.wf_raise {s : State} (h : s.wf) (e : Exn) : (s.raise e).wf := by
  obtain ⟨hpc, hcode, -, hmem⟩ := h
  refine ⟨?_, ?_, iff_of_true (s.raise_faultCause_ne_none e) (s.raise_status e), ?_⟩
  · rwa [State.raise_pc, State.raise_codeSize]
  · rwa [State.raise_codeSize]
  · rwa [State.raise_mem]

theorem State.wf_setReg {s : State} (h : s.wf) (r : RegNum) (v : Word) : (s.setReg r v).wf := h

theorem State.wf_setMem {s : State} (h : s.wf) {m : Memory} (hm : m.wf) : (s.setMem m).wf := by
  obtain ⟨hpc, hcode, hcause, -⟩ := h
  exact ⟨hpc, hcode, hcause, hm⟩

theorem State.wf_advance {s : State} (h : s.wf) {n : Nat} (hfit : s.pc.toNat + n ≤ s.codeSize.toNat) :
    (s.advance n).wf := by
  obtain ⟨-, hcode, hcause, hmem⟩ := h
  exact ⟨(State.toNat_pc_advance hfit).trans_le hfit, hcode, hcause, hmem⟩

theorem StepEffect.wf {s t : State} (h : StepEffect s t) (hs : s.wf) : t.wf := by
  cases h with
  | ended _ => exact hs
  | halt hrun => exact State.wf_halt hs hrun
  | fault _ e _ => exact State.wf_raise hs e
  | writeReg _ n hfit r v => exact State.wf_advance (State.wf_setReg hs r v) hfit
  | storeWord _ n hfit addr v hmem =>
    have ⟨_, _, _, hcanonical⟩ := hs
    exact State.wf_advance (State.wf_setMem hs (wf_storedWord hcanonical v hmem)) hfit

/-- Settles O39: each of the effects a step can have keeps the invariant. -/
theorem stepKeepsWellFormed : Obligations.StepKeepsWellFormed :=
  fun _ _ hs h => (stepEffect_of_step h).wf hs

theorem exec_answersNext (i : Instr) (s : State) : ∃ t, exec i s = .next t := by
  rcases exec_cases i s with ⟨_, _, _, _, _, he⟩ | ⟨_, _, _, _, he⟩ | ⟨_, _, _, _, _, he⟩ <;> exact ⟨_, he⟩

/-- Settles O41: the one step without a next state is that of a `CODE_SIZE` above 2^20. -/
theorem wellFormedStepAnswersNext : Obligations.WellFormedStepAnswersNext := by
  rintro s ⟨_, hcode, _, _⟩
  by_cases hrun : s.status = .running
  · rw [step_running hrun]
    rcases cycle_cases s with ⟨_, hc⟩ | ⟨_, hbig, _⟩ | ⟨_, _, ⟨_, hc⟩ | ⟨op, _, hc⟩ | ⟨i, n, _, hc⟩⟩
    · exact ⟨_, hc⟩
    · exact absurd hcode (Nat.not_le_of_lt hbig)
    · exact ⟨_, hc⟩
    · exact ⟨_, hc⟩
    · rw [hc]
      exact exec_answersNext i s
  · exact ⟨s, step_ended hrun⟩

/-! ### `CODE_SIZE` and the fault registers -/

/-- Settles O32, by the effects a step can have. -/
theorem stepKeepsCodeSize : Obligations.StepKeepsCodeSize := by
  intro s t h
  cases stepEffect_of_step h with
  | ended _ => rfl
  | halt _ => rfl
  | fault _ e _ => exact State.raise_codeSize s e
  | writeReg _ _ _ _ _ => rfl
  | storeWord _ _ _ _ _ _ => rfl

/-- A step that is no fault entry leaves both fault registers as they are; a fault entry leaves a legal record
(R15, R79). -/
theorem StepEffect.faultRegisters {s t : State} (h : StepEffect s t) :
    (t.faultCause = s.faultCause ∧ t.faultInfo = s.faultInfo) ∨
      (s.status = .running ∧ t.status = .faulted ∧ t.faultRecordLegal) := by
  cases h with
  | ended _ => exact .inl ⟨rfl, rfl⟩
  | halt _ => exact .inl ⟨rfl, rfl⟩
  | fault hrun e hlegal => exact .inr ⟨hrun, s.raise_status e, hlegal⟩
  | writeReg _ _ _ _ _ => exact .inl ⟨rfl, rfl⟩
  | storeWord _ _ _ _ _ _ => exact .inl ⟨rfl, rfl⟩

/-- The legality of a fault record is a matter of the two fault registers alone. -/
theorem State.faultRecordLegal_congr {s t : State} (hcause : t.faultCause = s.faultCause)
    (hinfo : t.faultInfo = s.faultInfo) : t.faultRecordLegal ↔ s.faultRecordLegal := by
  unfold State.faultRecordLegal
  rw [hcause, hinfo]

/-- Settles O33: only the fault entry touches the fault registers. -/
theorem faultRegistersChangeOnlyOnFault : Obligations.FaultRegistersChangeOnlyOnFault := by
  intro s t h hchange
  rcases (stepEffect_of_step h).faultRegisters with ⟨hcause, hinfo⟩ | ⟨hrun, hfaulted, _⟩
  · exact absurd hchange (by simp [hcause, hinfo])
  · exact ⟨hrun, hfaulted⟩

/-- Settles O40: the record is the old one, or the one a fault entry leaves. -/
theorem stepKeepsFaultRecordLegal : Obligations.StepKeepsFaultRecordLegal := by
  intro s t hs h
  rcases (stepEffect_of_step h).faultRegisters with ⟨hcause, hinfo⟩ | ⟨_, _, hlegal⟩
  · exact (State.faultRecordLegal_congr hcause hinfo).mpr hs
  · exact hlegal

/-! ### Where a run starts -/

/-- Settles O38: no code, no fault, and an empty memory. -/
theorem resetIsWellFormed : Obligations.ResetIsWellFormed := by
  have hcause : State.reset.faultCause ≠ .none ↔ State.reset.status = .faulted := by decide
  exact ⟨⟨Nat.le_refl 0, Nat.zero_le _, hcause, Memory.wf_reset⟩, trivial⟩

/-- What `loadProgram` can answer (R86, R87). -/
theorem loadProgram_cases (bytes : List Byte) :
    (Config.memSize < bytes.length ∧ loadProgram bytes = .error .programTooLong) ∨
      (bytes.length ≤ Config.memSize ∧ loadProgram bytes =
        .ok { State.reset with mem := Memory.ofBytes 0 bytes, codeSize := BitVec.ofNat 21 bytes.length }) := by
  unfold loadProgram
  split
  · next h => exact .inl ⟨h, rfl⟩
  · next h => exact .inr ⟨Nat.le_of_not_lt h, rfl⟩

/-- Settles O37: the control state is that of reset, and the program fits into memory. -/
theorem loadedStateIsWellFormed : Obligations.LoadedStateIsWellFormed := by
  intro bytes s h
  obtain ⟨⟨_, _, hcause, _⟩, hlegal⟩ := resetIsWellFormed
  rcases loadProgram_cases bytes with ⟨_, hl⟩ | ⟨hfit, hl⟩
  · cases hl.symm.trans h
  · cases hl.symm.trans h
    have hcode : (BitVec.ofNat 21 bytes.length).toNat ≤ Config.memSize := (Nat.mod_le _ _).trans hfit
    have hmem : (Memory.ofBytes 0 bytes).wf := Memory.wf_ofBytes (by rwa [Nat.zero_add])
    exact ⟨⟨Nat.zero_le _, hcode, hcause, hmem⟩, hlegal⟩

end Sys2Proof.Machine

/-! SUPPORT AND CERTIFICATES. Memory: words as bytes, overlapping accesses, where an access can fault, and
the fetch that follows a store. -/

namespace Sys2Proof

/-! ### Bytes of a word, and the decoder on a longer window -/

/-- Byte `k` of a word, as the arithmetic of `toBytes` has it. -/
theorem extractLsb'_byte {n : Nat} (v : BitVec n) (k : Nat) :
    v.extractLsb' (8 * k) 8 = BitVec.ofNat 8 (v.toNat / 256 ^ k) := by
  rw [BitVec.extractLsb', Nat.shiftRight_eq_div_pow, Nat.pow_mul]

theorem toNat_ofNat_littleEndian {bytes : List Byte} (h : bytes.length = 4) :
    (BitVec.ofNat 32 (littleEndian bytes)).toNat = littleEndian bytes := by
  have hlt := littleEndian_lt bytes
  rw [h] at hlt
  exact Nat.mod_eq_of_lt hlt

/-- Byte `k` of the word that four bytes spell is the one at place `k` (R21). -/
theorem extractLsb'_littleEndian {bytes : List Byte} (h : bytes.length = 4) {k : Nat} (hk : k < bytes.length) :
    (BitVec.ofNat 32 (littleEndian bytes)).extractLsb' (8 * k) 8 = bytes[k] := by
  have hk' : k < (toBytes bytes.length (littleEndian bytes)).length := by rwa [length_toBytes]
  rw [extractLsb'_byte, toNat_ofNat_littleEndian h, ← getElem_toBytes _ _ k hk']
  simp only [toBytes_littleEndian]

/-- The word that a word's own bytes spell. -/
theorem ofNat_littleEndian_toBytes (v : Word) : BitVec.ofNat 32 (littleEndian (toBytes 4 v.toNat)) = v := by
  have hlt : v.toNat < 256 ^ 4 := v.isLt
  rw [littleEndian_toBytes, Nat.mod_eq_of_lt hlt, BitVec.ofNat_toNat, BitVec.setWidth_eq]

/-- Bytes after a window that holds a whole instruction do not matter to the decoder (R46). -/
theorem decode_append {window : List Byte} {i : Instr} {n : Nat} (h : decode window = .instruction i n)
    (more : List Byte) : decode (window ++ more) = .instruction i n := by
  cases window with
  | nil => cases h
  | cons b rest =>
    rcases decode_cases b rest with ⟨_, hd⟩ | ⟨hfit, hd⟩
    · cases hd.symm.trans h
    · have hlonger : ¬(b :: (rest ++ more)).length < lengthOf (opcodeOf b) := by
        simp only [List.length_cons, List.length_append] at hfit ⊢
        omega
      rw [List.cons_append, decode, if_neg hlonger, ← List.cons_append, List.take_append_of_le_length hfit, ← hd, h]

end Sys2Proof

namespace Sys2Proof.Machine

/-! ### Byte sequences of memory -/

theorem Memory.readBytes_eq_map (m : Memory) (a n : Nat) :
    m.readBytes a n = (List.range n).map (fun k => m.readByte (a + k)) := by
  apply List.ext_getElem
  · simp [Memory.length_readBytes]
  · intro k h₁ h₂
    simp [Memory.getElem_readBytes]

theorem Memory.readBytes_add (m : Memory) (a n k : Nat) :
    m.readBytes a (n + k) = m.readBytes a n ++ m.readBytes (a + n) k := by
  simp only [Memory.readBytes_eq_map, List.range_add, List.map_append, List.map_map, Function.comp_def, Nat.add_assoc]

theorem Memory.readBytes_congr {m m' : Memory} {a n : Nat}
    (h : ∀ k, k < n → m.readByte (a + k) = m'.readByte (a + k)) :
    m.readBytes a n = m'.readBytes a n := by
  rw [Memory.readBytes_eq_map, Memory.readBytes_eq_map]
  exact List.map_congr_left fun k hk => h k (List.mem_range.mp hk)

/-! ### `MemRead` and `MemWrite` by bytes -/

/-- A read inside memory answers the word whose byte `k` is the byte at `addr + k` (R21, R22). -/
theorem memRead_ok_bytes (m : Memory) {addr : Nat} (h : addr + 4 ≤ Config.memSize) :
    ∃ w, memRead m addr = .ok w ∧ ∀ k, k < 4 → w.extractLsb' (8 * k) 8 = m.readByte (addr + k) := by
  refine ⟨_, memRead_inBounds m h, fun k hk => ?_⟩
  have hlen := m.length_readBytes addr 4
  rw [extractLsb'_littleEndian hlen (hk.trans_eq hlen.symm), Memory.getElem_readBytes]

theorem memRead_ok_inBounds {m : Memory} {addr : Nat} {w : Word} (h : memRead m addr = .ok w) :
    addr + 4 ≤ Config.memSize := by
  rcases memRead_cases m addr with ⟨_, hr⟩ | ⟨hin, _⟩
  · cases hr.symm.trans h
  · exact hin

theorem memWrite_ok {m m' : Memory} {addr : Nat} {v : Word} (h : memWrite m addr v = .ok m') :
    addr + 4 ≤ Config.memSize ∧ m' = m.writeBytes addr (toBytes 4 v.toNat) := by
  rcases memWrite_cases m addr v with ⟨_, hw⟩ | ⟨hin, hw⟩
  · cases hw.symm.trans h
  · cases hw.symm.trans h
    exact ⟨hin, rfl⟩

/-- `readByte_storedWord` with the stored byte as bits of the word (R23). -/
theorem readByte_storedWord_bits (m : Memory) (addr : Nat) (v : Word) (b : Nat) :
    (m.writeBytes addr (toBytes 4 v.toNat)).readByte b =
      if addr ≤ b ∧ b < addr + 4 then v.extractLsb' (8 * (b - addr)) 8 else m.readByte b := by
  rw [readByte_storedWord, extractLsb'_byte]

theorem readByte_storedWord_inside (m : Memory) (addr : Nat) (v : Word) {k : Nat} (hk : k < 4) :
    (m.writeBytes addr (toBytes 4 v.toNat)).readByte (addr + k) = v.extractLsb' (8 * k) 8 := by
  rw [readByte_storedWord_bits, if_pos ⟨by omega, by omega⟩, Nat.add_sub_cancel_left]

theorem readByte_storedWord_outside (m : Memory) {addr : Nat} (v : Word) {b : Nat} (h : b < addr ∨ addr + 4 ≤ b) :
    (m.writeBytes addr (toBytes 4 v.toNat)).readByte b = m.readByte b := by
  rw [readByte_storedWord_bits, if_neg (by omega)]

theorem readBytes_storedWord (m : Memory) (addr : Nat) (v : Word) :
    (m.writeBytes addr (toBytes 4 v.toNat)).readBytes addr 4 = toBytes 4 v.toNat := by
  have h := m.readBytes_writeBytes addr (toBytes 4 v.toNat)
  rwa [length_toBytes] at h

theorem memRead_storedWord_same (m : Memory) {addr : Nat} (v : Word) (h : addr + 4 ≤ Config.memSize) :
    memRead (m.writeBytes addr (toBytes 4 v.toNat)) addr = .ok v := by
  rw [memRead_inBounds _ h, readBytes_storedWord, ofNat_littleEndian_toBytes]

/-- A read clear of the stored word answers as before, its error included. -/
theorem memRead_storedWord_disjoint (m : Memory) {addr : Nat} (v : Word) {b : Nat}
    (h : b + 4 ≤ addr ∨ addr + 4 ≤ b) :
    memRead (m.writeBytes addr (toBytes 4 v.toNat)) b = memRead m b := by
  have hbytes : (m.writeBytes addr (toBytes 4 v.toNat)).readBytes b 4 = m.readBytes b 4 :=
    Memory.readBytes_congr fun k hk => readByte_storedWord_outside m v (by omega)
  unfold memRead
  rw [hbytes]

/-- Settles O11, by the bounds test, and the integer of four bytes written out. -/
theorem memReadIsBoundedLittleEndian : Obligations.MemReadIsBoundedLittleEndian := by
  refine fun m a => ⟨memRead_outOfBounds m, fun hin => ⟨_, memRead_inBounds m hin, ?_⟩⟩
  rw [toNat_ofNat_littleEndian (m.length_readBytes a 4)]
  simp only [Memory.readBytes, littleEndian, Nat.add_assoc, Nat.reduceAdd]
  omega

/-- Settles O12, by the bounds test, and one byte read after a word was stored. -/
theorem memWriteStoresFourBytes : Obligations.MemWriteStoresFourBytes := by
  refine fun m a v => ⟨memWrite_outOfBounds m v, fun hin => ⟨_, memWrite_inBounds m v hin, ?_, ?_⟩⟩
  · exact fun k hk => readByte_storedWord_inside m a v hk
  · exact fun b hb => readByte_storedWord_outside m v hb

/-- Where the low three bytes of `w` are the high three of `v`, so are the 24 bits they make up. -/
theorem extractLsb'_24_of_bytes {v w : Word}
    (h : ∀ k, k < 3 → w.extractLsb' (8 * k) 8 = v.extractLsb' (8 * (k + 1)) 8) :
    w.extractLsb' 0 24 = v.extractLsb' 8 24 := by
  have h₀ := congrArg BitVec.toNat (h 0 (by decide))
  have h₁ := congrArg BitVec.toNat (h 1 (by decide))
  have h₂ := congrArg BitVec.toNat (h 2 (by decide))
  apply BitVec.eq_of_toNat_eq
  simp only [BitVec.extractLsb'_toNat, Nat.shiftRight_eq_div_pow] at h₀ h₁ h₂ ⊢
  omega

/-- Settles O13: a read after the write gives the bytes that are there, and each clause says which of them were
stored. -/
theorem overlappingReadsSeeTheBytes : Obligations.OverlappingReadsSeeTheBytes := by
  intro m m' a v hwrite
  obtain ⟨hin, rfl⟩ := memWrite_ok hwrite
  refine ⟨fun b hb => ?_, memRead_storedWord_same m v hin, fun w hw => ?_,
    fun b hb => memRead_storedWord_disjoint m v hb⟩
  · obtain ⟨w, hw, hbytes⟩ := memRead_ok_bytes (m.writeBytes a (toBytes 4 v.toNat)) hb
    exact ⟨w, hw, fun k hk => (hbytes k hk).trans (readByte_storedWord_bits m a v (b + k))⟩
  · obtain ⟨w', hw', hbytes⟩ := memRead_ok_bytes (m.writeBytes a (toBytes 4 v.toNat)) (memRead_ok_inBounds hw)
    cases hw'.symm.trans hw
    constructor
    · refine extractLsb'_24_of_bytes fun k hk => ?_
      rw [hbytes k (by omega), Nat.add_assoc, Nat.add_comm 1 k, readByte_storedWord_inside m a v (by omega)]
    · exact (hbytes 3 (by decide)).trans (readByte_storedWord_outside m v (.inr (Nat.le_refl (a + 4))))

/-! ### Where an instruction can fault -/

/-- Settles O21: of the three things `exec` can do, one touches the status, and it is Popcnt's fault entry. -/
theorem onlyPopcntCanFault : Obligations.OnlyPopcntCanFault := by
  intro i s
  rcases exec_cases i s with ⟨addr, kind, hout, _, hpopcnt, he⟩ | ⟨r, v, _, _, he⟩ | ⟨addr, v, _, _, _, he⟩
  · exact ⟨_, he, fun _ => ⟨hpopcnt, rfl, rfl, addr, kind, rfl, hout⟩⟩
  · exact ⟨_, he, fun hne => absurd rfl hne⟩
  · exact ⟨_, he, fun hne => absurd rfl hne⟩

/-! ### The fetch after a store -/

theorem decode_window_of_end {s : State} (h : s.codeSize.toNat ≤ s.pc.toNat) : decode s.window = .truncated := by
  have hnil : s.window = [] := List.eq_nil_of_length_eq_zero (by rw [length_window]; omega)
  rw [hnil, decode]

/-- A step of a Running machine follows the decoder's answer on the window; the end of the code is an empty window
(R57, R60, R78). -/
theorem step_of_decode {s : State} (hrun : s.status = .running) (hcode : s.codeSize.toNat ≤ Config.memSize) :
    (decode s.window = .truncated → step s = .next s.halt) ∧
    (∀ op, decode s.window = .unknownOpcode op → step s = .next (s.raise (.unknownOpcode op))) ∧
    ∀ i n, decode s.window = .instruction i n → step s = exec i s := by
  rw [step_running hrun]
  rcases cycle_cases s with ⟨hend, hc⟩ | ⟨_, hbig, _⟩ | ⟨_, _, ⟨hd, hc⟩ | ⟨op, hd, hc⟩ | ⟨i, n, hd, hc⟩⟩
  · simp [decode_window_of_end hend, hc]
  · exact absurd hcode (Nat.not_le_of_lt hbig)
  · simp [hd, hc]
  · simp +contextual [hd, hc]
  · simp +contextual [hd, hc]

/-- Where the first bytes from `pc` on decode to an instruction, a step of a Running machine runs it, whatever follows
them in the code. -/
theorem step_of_decode_readBytes {s : State} (hrun : s.status = .running) (hcode : s.codeSize.toNat ≤ Config.memSize)
    {n k : Nat} {i : Instr} (hn : n ≤ 5) (hfit : s.pc.toNat + n ≤ s.codeSize.toNat)
    (h : decode (s.mem.readBytes s.pc.toNat n) = .instruction i k) : step s = exec i s := by
  obtain ⟨-, -, hinstr⟩ := step_of_decode hrun hcode
  obtain ⟨more, hmore⟩ : ∃ more, min 5 (s.codeSize.toNat - s.pc.toNat) = n + more :=
    Nat.exists_eq_add_of_le (by omega)
  refine hinstr i k ?_
  rw [State.window, Config.maxLength, hmore, Memory.readBytes_add]
  exact decode_append h _

/-- The state after a 4-byte instruction that stores the word `v` at `dst` (R67, R68). -/
def State.afterStore (s : State) (dst : Nat) (v : Word) : State :=
  (s.setMem (s.mem.writeBytes dst (toBytes 4 v.toNat))).advance 4

theorem State.afterStore_status (s : State) (dst : Nat) (v : Word) : (s.afterStore dst v).status = s.status := rfl

theorem State.afterStore_codeSize (s : State) (dst : Nat) (v : Word) : (s.afterStore dst v).codeSize = s.codeSize := rfl

theorem State.afterStore_mem (s : State) (dst : Nat) (v : Word) :
    (s.afterStore dst v).mem = s.mem.writeBytes dst (toBytes 4 v.toNat) := rfl

theorem State.toNat_pc_afterStore {s : State} (hfit : s.pc.toNat + 4 ≤ s.codeSize.toNat) (dst : Nat) (v : Word) :
    (s.afterStore dst v).pc.toNat = s.pc.toNat + 4 :=
  State.toNat_pc_advance (s := s.setMem _) hfit

theorem execWritemem_eq_afterStore (r : RegNum) (a : MemAddr) (s : State) :
    execWritemem r a s = .next (s.afterStore (directAddress a) (s.reg r)) :=
  execWritemem_eq r a s

/-- Popcnt where both addresses are in bounds stores the word it read (R68). -/
theorem execPopcnt_eq_afterStore {b c : Offset} {d e : RegNum} {s : State} {v : Word}
    (hread : memRead s.mem (indirectAddress s d c) = .ok v) (hdst : indirectAddress s e b + 4 ≤ Config.memSize) :
    execPopcnt b c d e s = .next (s.afterStore (indirectAddress s e b) v) := by
  unfold execPopcnt State.load State.store
  simp only [hread, Except.bind, memWrite_inBounds s.mem v hdst]
  rfl

/-- What the fetch after a store sees: the stored word where it lies, the old memory elsewhere (R33). -/
theorem State.window_afterStore {s : State} (hfit : s.pc.toNat + 4 ≤ s.codeSize.toNat) (dst : Nat) (v : Word) :
    (s.afterStore dst v).window =
      (List.range (min 5 (s.codeSize.toNat - (s.pc.toNat + 4)))).map (fun k =>
        if dst ≤ s.pc.toNat + 4 + k ∧ s.pc.toNat + 4 + k < dst + 4 then
          v.extractLsb' (8 * (s.pc.toNat + 4 + k - dst)) 8
        else s.mem.readByte (s.pc.toNat + 4 + k)) := by
  rw [State.window, State.toNat_pc_afterStore hfit, State.afterStore_codeSize, State.afterStore_mem,
    Memory.readBytes_eq_map]
  exact List.map_congr_left fun k _ => readByte_storedWord_bits s.mem dst v _

/-- The stored word and the byte after it, as a fetch of five bytes sees them (P8). -/
theorem readBytes_storedWord_five (m : Memory) (addr : Nat) (v : Word) :
    (m.writeBytes addr (toBytes 4 v.toNat)).readBytes addr 5 = toBytes 4 v.toNat ++ [m.readByte (addr + 4)] := by
  rw [Memory.readBytes_add _ addr 4 1, readBytes_storedWord, Memory.readBytes, Memory.readBytes,
    readByte_storedWord_outside m v (.inr (Nat.le_refl _))]

/-- Settles O31: the store is the step's only effect on memory, and the next step decodes the window of the memory it
left, of which the last two clauses read off the first four or five bytes. -/
theorem storeIsSeenByNextFetch : Obligations.StoreIsSeenByNextFetch := by
  intro s j dst v hrun hcode hdecode hstore next fetched
  obtain ⟨-, hfit⟩ := decoded_fits hdecode
  have hexec : exec j s = .next (s.afterStore dst v) := by
    rcases hstore with ⟨r, a, rfl, rfl, rfl⟩ | ⟨b, c, d, e, rfl, rfl, hdst, hread⟩
    · exact execWritemem_eq_afterStore r a s
    · exact execPopcnt_eq_afterStore hread hdst
  obtain ⟨-, -, hstep⟩ := step_of_decode hrun hcode
  have hpc : (s.afterStore dst v).pc.toNat = next := State.toNat_pc_afterStore hfit dst v
  have hrun' : (s.afterStore dst v).status = .running := (s.afterStore_status dst v).trans hrun
  have hcode' : (s.afterStore dst v).codeSize.toNat ≤ Config.memSize := hcode
  refine ⟨_, (hstep j 4 hdecode).trans hexec, hpc, hrun', ?_, ?_⟩
  · have hwindow : (s.afterStore dst v).window = fetched := State.window_afterStore hfit dst v
    obtain ⟨htruncated, hunknown, hinstr⟩ := step_of_decode hrun' hcode'
    rw [hwindow] at htruncated hunknown hinstr
    cases hd : decode fetched with
    | instruction i n => exact hinstr i n hd
    | truncated => exact htruncated hd
    | unknownOpcode op => exact hunknown op hd
  · rintro rfl i
    constructor
    · intro hfits hword
      refine step_of_decode_readBytes hrun' hcode' (n := 4) (k := 4) (by decide) (by rwa [hpc]) ?_
      rwa [hpc, State.afterStore_mem, readBytes_storedWord]
    · intro hfits hword
      refine step_of_decode_readBytes hrun' hcode' (n := 5) (k := 5) (by decide) (by rwa [hpc]) ?_
      rwa [hpc, State.afterStore_mem, readBytes_storedWord_five]

end Sys2Proof.Machine

/-! SUPPORT AND CERTIFICATES. Encoding: the decoder and the packer as inverses, the length, the padding bits,
validation, packed programs, the assembler, and the window of the step. -/

namespace Sys2Proof

/-! ### Bit fields of an integer -/

theorem field_eq_iff {w lo width : Nat} {x : BitVec width} :
    field w lo width = x ↔ w / 2 ^ lo % 2 ^ width = x.toNat := by
  rw [← BitVec.toNat_inj, toNat_field]

/-- A field as R46 computes it: shift, then mask. -/
theorem field_eq_ofNat (w lo width : Nat) : field w lo width = BitVec.ofNat width (w / 2 ^ lo % 2 ^ width) := by
  rw [field_eq_iff, BitVec.toNat_ofNat, Nat.mod_mod]

/-- A field that ends at or below bit `m` does not see the bits from `m` on. -/
theorem field_mod_two_pow (w : Nat) {lo width m : Nat} (h : lo + width ≤ m) :
    field (w % 2 ^ m) lo width = field w lo width := by
  obtain ⟨k, rfl⟩ := Nat.exists_eq_add_of_le h
  rw [field_eq_iff, toNat_field, Nat.add_assoc, Nat.pow_add, Nat.mod_mul_right_div_self, Nat.pow_add,
    Nat.mod_mul_right_mod]

/-! ### Byte sequences and their integers -/

theorem littleEndian_inj {xs ys : List Byte} (hlen : xs.length = ys.length) :
    littleEndian xs = littleEndian ys ↔ xs = ys := by
  refine ⟨fun h => ?_, congrArg littleEndian⟩
  rw [← toBytes_littleEndian xs, ← toBytes_littleEndian ys, h, hlen]

/-- The integer of `n` bytes from place `pc` on, as the sum that step 3 of R46 writes. -/
theorem littleEndian_take_drop {bytes : List Byte} {pc n : Nat} (h : pc + n ≤ bytes.length) :
    littleEndian ((bytes.drop pc).take n) =
      ((List.range n).map (fun k => (bytes.getD (pc + k) 0).toNat * 2 ^ (8 * k))).sum := by
  induction n generalizing pc with
  | zero => rfl
  | succ n ih =>
    have hpc : pc < bytes.length := by omega
    have hshift (k : Nat) : (bytes.getD (pc + (k + 1)) 0).toNat * 2 ^ (8 * (k + 1)) =
        256 * ((bytes.getD (pc + 1 + k) 0).toNat * 2 ^ (8 * k)) := by
      rw [Nat.add_right_comm pc 1 k, Nat.add_assoc pc k 1, Nat.mul_succ, Nat.pow_add]
      ring
    rw [List.drop_eq_getElem_cons hpc, List.take_succ_cons, littleEndian, ih (by omega), List.range_succ_eq_map,
      List.map_cons, List.map_map, List.sum_cons, ← List.sum_map_mul_left]
    simp only [Function.comp_def, Nat.succ_eq_add_one, hshift, Nat.add_zero, Nat.mul_zero, Nat.pow_zero, Nat.mul_one,
      List.getD_eq_getElem _ _ hpc]

/-- Clearing the last byte from bit `k` on reduces the integer modulo the bits below. -/
theorem littleEndian_mask_last (low : List Byte) (b mask : Byte) {k : Nat} (hmask : mask.toNat = 2 ^ k - 1) :
    littleEndian (low ++ [b &&& mask]) = littleEndian (low ++ [b]) % 2 ^ (8 * low.length + k) := by
  induction low with
  | nil => simp [littleEndian, hmask, Nat.and_two_pow_sub_one_eq_mod]
  | cons c low ih =>
    have hpow : 2 ^ (8 * (c :: low).length + k) = 256 * 2 ^ (8 * low.length + k) := by
      rw [List.length_cons, Nat.mul_succ, Nat.add_right_comm, Nat.pow_add, Nat.mul_comm]
    have hdiv : (c.toNat + 256 * littleEndian (low ++ [b])) / 256 = littleEndian (low ++ [b]) := by
      have := c.isLt
      omega
    rw [List.cons_append, List.cons_append, littleEndian, littleEndian, ih, hpow, Nat.mod_mul, hdiv]
    omega

/-! ### The opcode -/

theorem opcodeOf_eq_iff (b : Byte) (op : Opcode) : opcodeOf b = op ↔ b.toNat % 8 = op.toNat := by
  rw [← BitVec.toNat_inj, toNat_opcodeOf]

theorem opcodeOf_eq_ofNat (b : Byte) : opcodeOf b = BitVec.ofNat 3 (b.toNat % 8) := by
  rw [← toNat_opcodeOf, BitVec.ofNat_toNat, BitVec.setWidth_eq]

/-- The opcode is the lowest field of the instruction word (R36). -/
theorem opcodeOf_eq_field (b : Byte) (rest : List Byte) : opcodeOf b = field (littleEndian (b :: rest)) 0 3 := by
  rw [opcodeOf_eq_iff, toNat_field, littleEndian]
  omega

theorem opcode_cases (op : Opcode) :
    op = Config.opLoadconst ∨ op = Config.opReadmem ∨ op = Config.opWritemem ∨ op = Config.opPopcnt ∨
      op = 0 ∨ op = 1 ∨ op = 4 ∨ op = 7 := by
  revert op
  decide

/-- R35 over the opcode's number. -/
theorem lengthOf_eq (op : Opcode) : lengthOf op = if op.toNat = 3 then 5 else 4 := by
  simp only [lengthOf, ← BitVec.toNat_inj]
  rfl

theorem lengthOf_opcodeOf (b : Byte) : lengthOf (opcodeOf b) = if b.toNat % 8 = 3 then 5 else 4 := by
  rw [lengthOf_eq, toNat_opcodeOf]

theorem lengthOf_le_maxLength (op : Opcode) : lengthOf op ≤ Config.maxLength := by
  rcases lengthOf_cases op with h | h <;> simp [h]

/-- The opcode of an instruction (R43). -/
def Instr.opcode : Instr → Opcode
  | .loadconst _ _ => Config.opLoadconst
  | .readmem _ _ => Config.opReadmem
  | .writemem _ _ => Config.opWritemem
  | .popcnt _ _ _ _ => Config.opPopcnt

theorem lengthOf_opcode (i : Instr) : lengthOf i.opcode = i.length := by
  cases i <;> rfl

/-! ### The map from instruction words to instructions -/

theorem decodeWord_loadconst (w : Nat) :
    decodeWord Config.opLoadconst w = .instruction (.loadconst (field w 3 29) (field w 32 6)) 5 := rfl

theorem decodeWord_readmem (w : Nat) :
    decodeWord Config.opReadmem w = .instruction (.readmem (field w 3 17) (field w 20 6)) 4 := rfl

theorem decodeWord_writemem (w : Nat) :
    decodeWord Config.opWritemem w = .instruction (.writemem (field w 3 6) (field w 9 17)) 4 := rfl

theorem decodeWord_popcnt (w : Nat) :
    decodeWord Config.opPopcnt w =
      .instruction (.popcnt (field w 3 7) (field w 10 7) (field w 17 6) (field w 23 6)) 4 := rfl

theorem decodeWord_illegal {op : Opcode} (h : op = 0 ∨ op = 1 ∨ op = 4 ∨ op = 7) (w : Nat) :
    decodeWord op w = .unknownOpcode op := by
  rcases h with rfl | rfl | rfl | rfl <;> rfl

theorem decodeWord_legal {op : Opcode} (h : op = 2 ∨ op = 3 ∨ op = 5 ∨ op = 6) (w : Nat) :
    ∃ i, decodeWord op w = .instruction i (lengthOf op) := by
  rcases h with rfl | rfl | rfl | rfl
  · exact ⟨_, decodeWord_popcnt w⟩
  · exact ⟨_, decodeWord_loadconst w⟩
  · exact ⟨_, decodeWord_readmem w⟩
  · exact ⟨_, decodeWord_writemem w⟩

/-- The bits of an instruction word that its opcode and fields fill; the padding starts there (R37 to R40). -/
def usedBits (op : Opcode) : Nat :=
  if op = Config.opLoadconst then 38 else if op = Config.opPopcnt then 29 else 26

/-- The padding bits are ignored (R42, D8). -/
theorem decodeWord_mod_usedBits (op : Opcode) (w : Nat) : decodeWord op (w % 2 ^ usedBits op) = decodeWord op w := by
  have hfield {lo width : Nat} (h : lo + width ≤ usedBits op) :
      field (w % 2 ^ usedBits op) lo width = field w lo width := field_mod_two_pow w h
  rcases opcode_cases op with rfl | rfl | rfl | rfl | hillegal
  · rw [decodeWord_loadconst, decodeWord_loadconst, hfield (by decide), hfield (by decide)]
  · rw [decodeWord_readmem, decodeWord_readmem, hfield (by decide), hfield (by decide)]
  · rw [decodeWord_writemem, decodeWord_writemem, hfield (by decide), hfield (by decide)]
  · rw [decodeWord_popcnt, decodeWord_popcnt, hfield (by decide), hfield (by decide), hfield (by decide),
      hfield (by decide)]
  · rw [decodeWord_illegal hillegal, decodeWord_illegal hillegal]

theorem packWord_loadconst (c : ConstVal) (r : RegNum) :
    packWord (.loadconst c r) = 3 + c.toNat * 2 ^ 3 + r.toNat * 2 ^ 32 := packWord_eq_sum _

theorem packWord_readmem (a : MemAddr) (r : RegNum) :
    packWord (.readmem a r) = 5 + a.toNat * 2 ^ 3 + r.toNat * 2 ^ 20 := packWord_eq_sum _

theorem packWord_writemem (r : RegNum) (a : MemAddr) :
    packWord (.writemem r a) = 6 + r.toNat * 2 ^ 3 + a.toNat * 2 ^ 9 := packWord_eq_sum _

theorem packWord_popcnt (b c : Offset) (d e : RegNum) :
    packWord (.popcnt b c d e) =
      2 + b.toNat * 2 ^ 3 + c.toNat * 2 ^ 10 + d.toNat * 2 ^ 17 + e.toNat * 2 ^ 23 := packWord_eq_sum _

theorem field_packWord_opcode (i : Instr) : field (packWord i) 0 3 = i.opcode := by
  rw [field_eq_iff]
  cases i with
  | loadconst c r => simp only [packWord_loadconst, Instr.opcode, BitVec.toNat_ofNat]; omega
  | readmem a r => simp only [packWord_readmem, Instr.opcode, BitVec.toNat_ofNat]; omega
  | writemem r a => simp only [packWord_writemem, Instr.opcode, BitVec.toNat_ofNat]; omega
  | popcnt b c d e => simp only [packWord_popcnt, Instr.opcode, BitVec.toNat_ofNat]; omega

/-- Decoding the packed word: every field comes back from its place (R47, R48). -/
theorem decodeWord_packWord (i : Instr) : decodeWord i.opcode (packWord i) = .instruction i i.length := by
  cases i with
  | loadconst c r =>
    have hsum := packWord_loadconst c r
    have hc := c.isLt
    have hr := r.isLt
    have hconst : field (packWord (.loadconst c r)) 3 29 = c := field_eq_iff.mpr (by omega)
    have hreg : field (packWord (.loadconst c r)) 32 6 = r := field_eq_iff.mpr (by omega)
    rw [Instr.opcode, decodeWord_loadconst, hconst, hreg, Instr.length]
  | readmem a r =>
    have hsum := packWord_readmem a r
    have ha := a.isLt
    have hr := r.isLt
    have haddr : field (packWord (.readmem a r)) 3 17 = a := field_eq_iff.mpr (by omega)
    have hreg : field (packWord (.readmem a r)) 20 6 = r := field_eq_iff.mpr (by omega)
    rw [Instr.opcode, decodeWord_readmem, haddr, hreg, Instr.length]
  | writemem r a =>
    have hsum := packWord_writemem r a
    have ha := a.isLt
    have hr := r.isLt
    have hreg : field (packWord (.writemem r a)) 3 6 = r := field_eq_iff.mpr (by omega)
    have haddr : field (packWord (.writemem r a)) 9 17 = a := field_eq_iff.mpr (by omega)
    rw [Instr.opcode, decodeWord_writemem, hreg, haddr, Instr.length]
  | popcnt b c d e =>
    have hsum := packWord_popcnt b c d e
    have hb := b.isLt
    have hc := c.isLt
    have hd := d.isLt
    have he := e.isLt
    have hoffsetB : field (packWord (.popcnt b c d e)) 3 7 = b := field_eq_iff.mpr (by omega)
    have hoffsetC : field (packWord (.popcnt b c d e)) 10 7 = c := field_eq_iff.mpr (by omega)
    have hregD : field (packWord (.popcnt b c d e)) 17 6 = d := field_eq_iff.mpr (by omega)
    have hregE : field (packWord (.popcnt b c d e)) 23 6 = e := field_eq_iff.mpr (by omega)
    rw [Instr.opcode, decodeWord_popcnt, hoffsetB, hoffsetC, hregD, hregE, Instr.length]

/-- Packing what a word decodes to keeps the word's used bits and clears its padding. -/
theorem packWord_of_decodeWord {w n : Nat} {i : Instr} (h : decodeWord (field w 0 3) w = .instruction i n) :
    packWord i = w % 2 ^ usedBits i.opcode := by
  have hlow := toNat_field w 0 3
  rcases opcode_cases (field w 0 3) with ho | ho | ho | ho | hillegal
  · rw [ho, decodeWord_loadconst] at h
    cases h
    have hop : 3 = w % 8 := by simpa [ho] using hlow
    simp only [packWord_loadconst, toNat_field]
    change _ = w % 2 ^ 38
    omega
  · rw [ho, decodeWord_readmem] at h
    cases h
    have hop : 5 = w % 8 := by simpa [ho] using hlow
    simp only [packWord_readmem, toNat_field]
    change _ = w % 2 ^ 26
    omega
  · rw [ho, decodeWord_writemem] at h
    cases h
    have hop : 6 = w % 8 := by simpa [ho] using hlow
    simp only [packWord_writemem, toNat_field]
    change _ = w % 2 ^ 26
    omega
  · rw [ho, decodeWord_popcnt] at h
    cases h
    have hop : 2 = w % 8 := by simpa [ho] using hlow
    simp only [packWord_popcnt, toNat_field]
    change _ = w % 2 ^ 29
    omega
  · rw [decodeWord_illegal hillegal] at h
    cases h

theorem usedBits_le (op : Opcode) : usedBits op ≤ 8 * lengthOf op := by
  revert op
  decide

/-- The packed word fits into the instruction's bytes: decoding and packing it again changes nothing. -/
theorem packWord_lt (i : Instr) : packWord i < 256 ^ i.length := by
  have hdecode : decodeWord (field (packWord i) 0 3) (packWord i) = .instruction i i.length := by
    rw [field_packWord_opcode, decodeWord_packWord]
  calc packWord i = packWord i % 2 ^ usedBits i.opcode := packWord_of_decodeWord hdecode
    _ < 2 ^ usedBits i.opcode := Nat.mod_lt _ (Nat.two_pow_pos _)
    _ ≤ 2 ^ (8 * lengthOf i.opcode) := Nat.pow_le_pow_right (by decide) (usedBits_le i.opcode)
    _ = 256 ^ i.length := by rw [Nat.pow_mul, lengthOf_opcode]

/-! ### The decoder on windows -/

theorem decode_eq_truncated_iff (b : Byte) (rest : List Byte) :
    decode (b :: rest) = .truncated ↔ (b :: rest).length < lengthOf (opcodeOf b) := by
  rcases decode_cases b rest with ⟨hshort, hd⟩ | ⟨hfit, hd⟩
  · exact iff_of_true hd hshort
  · exact iff_of_false (hd ▸ decodeWord_ne_truncated _ _) (Nat.not_lt_of_le hfit)

theorem decode_of_fits {b : Byte} {rest : List Byte} (hfit : lengthOf (opcodeOf b) ≤ (b :: rest).length) :
    decode (b :: rest) =
      decodeWord (opcodeOf b) (littleEndian ((b :: rest).take (lengthOf (opcodeOf b)))) := by
  rcases decode_cases b rest with ⟨hshort, _⟩ | ⟨_, hd⟩
  · exact absurd hfit (Nat.not_le_of_lt hshort)
  · exact hd

/-- A window of exactly its opcode's length decodes as its word does. -/
theorem decode_of_length_eq {b : Byte} {rest : List Byte} (h : (b :: rest).length = lengthOf (opcodeOf b)) :
    decode (b :: rest) = decodeWord (opcodeOf b) (littleEndian (b :: rest)) := by
  rw [decode_of_fits h.ge, ← h, List.take_length]

theorem length_of_decode {b : Byte} {rest : List Byte} {i : Instr} {n : Nat}
    (h : decode (b :: rest) = .instruction i n) : n = lengthOf (opcodeOf b) := by
  rcases decode_cases b rest with ⟨_, hd⟩ | ⟨_, hd⟩
  · cases hd.symm.trans h
  · obtain ⟨-, hn⟩ := decodeWord_instruction (hd.symm.trans h)
    exact hn

/-- A window that decodes as a whole does so by its word alone. -/
theorem decodeWord_of_decode_whole {window : List Byte} {i : Instr}
    (h : decode window = .instruction i window.length) :
    decodeWord (field (littleEndian window) 0 3) (littleEndian window) = .instruction i window.length := by
  cases window with
  | nil => cases h
  | cons b rest => rw [← opcodeOf_eq_field, ← decode_of_length_eq (length_of_decode h), h]

/-- The decoder never looks past the longest instruction. -/
theorem decode_take_maxLength (bytes : List Byte) : decode (bytes.take Config.maxLength) = decode bytes := by
  cases bytes with
  | nil => rfl
  | cons b rest =>
    have hmax := lengthOf_le_maxLength (opcodeOf b)
    have hlen : (b :: rest.take 4).length < lengthOf (opcodeOf b) ↔ (b :: rest).length < lengthOf (opcodeOf b) := by
      simp only [List.length_cons, List.length_take, Config.maxLength] at hmax ⊢
      omega
    have htake : (b :: rest.take 4).take (lengthOf (opcodeOf b)) = (b :: rest).take (lengthOf (opcodeOf b)) := by
      rw [← List.take_succ_cons, List.take_take, Nat.min_eq_left hmax]
    rw [Config.maxLength, List.take_succ_cons, decode, decode, htake]
    simp only [hlen]

/-! ### Packed instructions -/

theorem length_encode (i : Instr) : (encode i).length = i.length := length_toBytes _ _

theorem littleEndian_encode (i : Instr) : littleEndian (encode i) = packWord i := by
  rw [encode, littleEndian_toBytes, Nat.mod_eq_of_lt (packWord_lt i)]

/-- R48: the packed bytes spell the packed word, and the packed word decodes to the instruction. -/
theorem decode_encode (i : Instr) : decode (encode i) = .instruction i i.length := by
  have hlen := length_encode i
  have hword := littleEndian_encode i
  cases henc : encode i with
  | nil => rcases i.length_cases with h | h <;> simp [henc, h] at hlen
  | cons b rest =>
    rw [henc] at hlen hword
    have hop : opcodeOf b = i.opcode := by rw [opcodeOf_eq_field b rest, hword, field_packWord_opcode]
    have hwhole : (b :: rest).length = lengthOf (opcodeOf b) := by rw [hlen, hop, lengthOf_opcode]
    rw [decode_of_length_eq hwhole, hop, hword, decodeWord_packWord]

theorem decodeOne_append_encode (before after : List Byte) (i : Instr) :
    decodeOne (before ++ encode i ++ after) before.length = .instruction i i.length := by
  rw [decodeOne, List.append_assoc, List.drop_left]
  exact decode_append (decode_encode i) after

/-- Settles O1: decoding undoes packing, and bytes behind the instruction do not matter. -/
theorem decodeInvertsPack : Obligations.DecodeInvertsPack := by
  intro i before after
  rw [length_encode]
  exact ⟨decode_encode i, decodeOne_append_encode before after i⟩

/-- Settles O2: packing the decoded instruction gives the window's integer without its padding bits. -/
theorem packInvertsDecodeWithoutPadding : Obligations.PackInvertsDecodeWithoutPadding := by
  intro window i h
  obtain ⟨hlen, -⟩ := decode_instruction h
  have hpack := packWord_of_decodeWord (decodeWord_of_decode_whole h)
  have hused : encode i = window ↔ littleEndian window < 2 ^ usedBits i.opcode := by
    rw [← littleEndian_inj ((length_encode i).trans hlen.symm), littleEndian_encode, hpack]
    exact Nat.mod_eq_iff_lt (Nat.two_pow_pos _).ne'
  cases i <;> exact hused

/-! ### Length, padding and legality -/

/-- Settles O3: the three clauses are the length's own equation, the count of a decoded instruction, and the decoder's
first test. -/
theorem lengthFollowsOpcodeAlone : Obligations.LengthFollowsOpcodeAlone := by
  refine ⟨lengthOf_eq, fun b rest i n h => ?_, fun b rest => ?_⟩
  · rw [length_of_decode h, lengthOf_opcodeOf]
  · rw [decode_eq_truncated_iff, lengthOf_opcodeOf]

/-- Clearing the padding in the last byte an instruction takes keeps the used bits of its word, and so the answer. -/
theorem decode_mask_last {op : Opcode} {b₀ : Byte} {low : List Byte} (b mask : Byte) (rest : List Byte) {k : Nat}
    (hop : b₀.toNat % 8 = op.toNat) (hlen : lengthOf op = low.length + 2)
    (hused : usedBits op = 8 * (low.length + 1) + k) (hmask : mask.toNat = 2 ^ k - 1) :
    decode (b₀ :: (low ++ b :: rest)) = decode (b₀ :: (low ++ (b &&& mask) :: rest)) := by
  obtain rfl : opcodeOf b₀ = op := (opcodeOf_eq_iff b₀ op).mpr hop
  have htake (c : Byte) : (b₀ :: (low ++ c :: rest)).take (lengthOf (opcodeOf b₀)) = b₀ :: low ++ [c] := by
    simp [hlen, List.take_append]
  have hword (c : Byte) : decode (b₀ :: (low ++ c :: rest)) =
      decodeWord (opcodeOf b₀) (littleEndian (b₀ :: low ++ [c])) := by
    rw [decode_of_fits, htake]
    simp only [hlen, List.length_cons, List.length_append]
    omega
  rw [hword, hword, littleEndian_mask_last (b₀ :: low) b mask hmask, List.length_cons, ← hused,
    decodeWord_mod_usedBits]

/-- Settles O4: each mask clears the last byte from the first padding bit on. -/
theorem paddingBitsIgnored : Obligations.PaddingBitsIgnored := by
  intro b0 b1 b2 b3 b4 rest
  refine ⟨fun h => ?_, fun h => ?_, fun h => ?_⟩
  · exact decode_mask_last (op := Config.opLoadconst) (low := [b1, b2, b3]) (k := 6) b4 _ rest h rfl rfl rfl
  · rcases h with h | h
    · exact decode_mask_last (op := Config.opReadmem) (low := [b1, b2]) (k := 2) b3 _ rest h rfl rfl rfl
    · exact decode_mask_last (op := Config.opWritemem) (low := [b1, b2]) (k := 2) b3 _ rest h rfl rfl rfl
  · exact decode_mask_last (op := Config.opPopcnt) (low := [b1, b2]) (k := 5) b3 _ rest h rfl rfl rfl

/-- The decoder's map over the opcode's number, with the fields as R46 computes them. -/
theorem decodeWord_eq_ite (op : Opcode) (w : Nat) :
    decodeWord op w =
      if op.toNat = 3 then
        .instruction (.loadconst (BitVec.ofNat 29 (w / 2 ^ 3 % 2 ^ 29)) (BitVec.ofNat 6 (w / 2 ^ 32 % 2 ^ 6))) 5
      else if op.toNat = 5 then
        .instruction (.readmem (BitVec.ofNat 17 (w / 2 ^ 3 % 2 ^ 17)) (BitVec.ofNat 6 (w / 2 ^ 20 % 2 ^ 6))) 4
      else if op.toNat = 6 then
        .instruction (.writemem (BitVec.ofNat 6 (w / 2 ^ 3 % 2 ^ 6)) (BitVec.ofNat 17 (w / 2 ^ 9 % 2 ^ 17))) 4
      else if op.toNat = 2 then
        .instruction (.popcnt (BitVec.ofNat 7 (w / 2 ^ 3 % 2 ^ 7)) (BitVec.ofNat 7 (w / 2 ^ 10 % 2 ^ 7))
          (BitVec.ofNat 6 (w / 2 ^ 17 % 2 ^ 6)) (BitVec.ofNat 6 (w / 2 ^ 23 % 2 ^ 6))) 4
      else .unknownOpcode op := by
  unfold decodeWord
  simp only [← field_eq_ofNat, ← BitVec.toNat_inj]
  rfl

/-- Settles O5: the test of the length, then the map on the sum of the bytes. -/
theorem decoderFollowsItsSteps : Obligations.DecoderFollowsItsSteps := by
  intro bytes pc hpc op n w
  have hdrop : bytes.drop pc = bytes[pc] :: bytes.drop (pc + 1) := List.drop_eq_getElem_cons hpc
  have hop : (opcodeOf bytes[pc]).toNat = op := by rw [toNat_opcodeOf, ← List.getD_eq_getElem bytes 0 hpc]
  have hn : lengthOf (opcodeOf bytes[pc]) = n := by rw [lengthOf_eq, hop]
  have hlen : (bytes[pc] :: bytes.drop (pc + 1)).length = bytes.length - pc := by rw [← hdrop, List.length_drop]
  rw [decodeOne, hdrop]
  by_cases hshort : bytes.length < pc + n
  · rw [if_pos hshort, decode_eq_truncated_iff, hlen, hn]
    omega
  · have hfit : pc + n ≤ bytes.length := Nat.le_of_not_lt hshort
    have hw : littleEndian ((bytes.drop pc).take n) = w := littleEndian_take_drop hfit
    have hunknown : BitVec.ofNat 3 op = opcodeOf bytes[pc] := by rw [← hop, BitVec.ofNat_toNat, BitVec.setWidth_eq]
    rw [if_neg hshort, decode_of_fits (by omega), hn, ← hdrop, hw, decodeWord_eq_ite, hop, hunknown]

/-- Settles O6: a window of its opcode's length decodes as its word does, and the opcode decides what that is. -/
theorem opcodeAloneDecidesLegality : Obligations.OpcodeAloneDecidesLegality := by
  intro b rest hlen
  rw [← lengthOf_opcodeOf] at hlen
  rw [decode_of_length_eq hlen, hlen, ← opcodeOf_eq_ofNat]
  refine ⟨fun h => decodeWord_legal ?_ _, fun h => decodeWord_illegal ?_ _⟩
  · simp only [opcodeOf_eq_iff]
    exact h
  · simp only [opcodeOf_eq_iff]
    exact h

/-! ### Validation -/

theorem validate_ofInstr (i : Instr) : (RawInstr.ofInstr i).validate = some i := by
  cases i with
  | popcnt b c d e => exact (Laws.FieldsInRange.popcnt b c d e).2
  | loadconst c r => exact (Laws.FieldsInRange.loadconst c r).2
  | readmem a r => exact (Laws.FieldsInRange.readmem a r).2
  | writemem r a => exact (Laws.FieldsInRange.writemem r a).2

theorem validate_eq_none_iff (raw : RawInstr) : raw.validate = none ↔ raw.wellFormed = false := by
  unfold RawInstr.validate
  split
  · next h => simp [h]
  · next h => simp [h]

/-- Integers in range are the fields of an instruction (R41). -/
theorem exists_ofInstr_of_wellFormed {raw : RawInstr} (h : raw.wellFormed = true) : ∃ i, raw = RawInstr.ofInstr i := by
  cases raw with
  | popcnt b c d e =>
    simp only [RawInstr.wellFormed, Bool.and_eq_true, decide_eq_true_eq] at h
    obtain ⟨⟨⟨hb, hc⟩, hd⟩, he⟩ := h
    exact ⟨.popcnt (.ofNatLT b hb) (.ofNatLT c hc) (.ofNatLT d hd) (.ofNatLT e he), rfl⟩
  | loadconst c r =>
    simp only [RawInstr.wellFormed, Bool.and_eq_true, decide_eq_true_eq] at h
    obtain ⟨hc, hr⟩ := h
    exact ⟨.loadconst (.ofNatLT c hc) (.ofNatLT r hr), rfl⟩
  | readmem a r =>
    simp only [RawInstr.wellFormed, Bool.and_eq_true, decide_eq_true_eq] at h
    obtain ⟨ha, hr⟩ := h
    exact ⟨.readmem (.ofNatLT a ha) (.ofNatLT r hr), rfl⟩
  | writemem r a =>
    simp only [RawInstr.wellFormed, Bool.and_eq_true, decide_eq_true_eq] at h
    obtain ⟨hr, ha⟩ := h
    exact ⟨.writemem (.ofNatLT r hr) (.ofNatLT a ha), rfl⟩

theorem validate_eq_some_iff (raw : RawInstr) (i : Instr) : raw.validate = some i ↔ raw = RawInstr.ofInstr i := by
  constructor
  · intro h
    have hwf : raw.wellFormed = true := by
      rw [← Bool.not_eq_false, ← validate_eq_none_iff, h]
      exact Option.some_ne_none i
    obtain ⟨j, rfl⟩ := exists_ofInstr_of_wellFormed hwf
    cases (validate_ofInstr j).symm.trans h
    rfl
  · rintro rfl
    exact validate_ofInstr i

/-- Settles O8: acceptance by the instruction whose fields the integers are, rejection by the range checks. -/
theorem validationAcceptsExactlyTheRanges : Obligations.ValidationAcceptsExactlyTheRanges := by
  refine ⟨validate_eq_some_iff, fun raw => ?_⟩
  rw [validate_eq_none_iff]
  cases raw <;>
    simp only [RawInstr.wellFormed, Bool.and_eq_false_iff, decide_eq_false_iff_not, Nat.not_lt, or_assoc]

/-! ### Packed programs -/

theorem packProgram_append_cons (before after : List Instr) (i : Instr) :
    packProgram (before ++ i :: after) = packProgram before ++ encode i ++ packProgram after := by
  simp [packProgram]

/-- Settles O9: the binary is a concatenation, and an instruction decodes at any position of any bytes. -/
theorem packedProgramDecodesInOrder : Obligations.PackedProgramDecodesInOrder := by
  intro before after i
  rw [packProgram_append_cons]
  exact ⟨decodeOne_append_encode _ _ i, rfl⟩

end Sys2Proof

namespace Sys2Proof.Machine

/-! ### The assembler -/

theorem assembleLines_cons_ok_iff (line : List Char) (rest : List (List Char)) (program : List Instr) :
    assembleLines (line :: rest) = .ok program ↔
      ∃ one more, assembleLine line = .ok one ∧ assembleLines rest = .ok more ∧ program = one.toList ++ more := by
  rw [assembleLines]
  cases assembleLine line with
  | error e => simp [Except.bind]
  | ok one =>
    cases assembleLines rest with
    | error e => simp [Except.bind, Except.map]
    | ok more => simp [Except.bind, Except.map, eq_comm]

/-- Settles O10, by induction on the lines: the first is accepted and so are the others. -/
theorem assemblerKeepsSourceOrder : Obligations.AssemblerKeepsSourceOrder := by
  intro lines
  induction lines with
  | nil => exact ⟨by simp [assembleLines], fun program h => by cases h; rfl⟩
  | cons line rest ih =>
    obtain ⟨hsucceeds, horder⟩ := ih
    constructor
    · rw [List.forall_mem_cons, ← hsucceeds]
      simp only [assembleLines_cons_ok_iff]
      constructor
      · rintro ⟨_, one, more, hone, hmore, -⟩
        exact ⟨⟨one, hone⟩, more, hmore⟩
      · rintro ⟨⟨one, hone⟩, more, hmore⟩
        exact ⟨_, one, more, hone, hmore, rfl⟩
    · intro program h
      obtain ⟨one, more, hone, hmore, rfl⟩ := (assembleLines_cons_ok_iff _ _ _).mp h
      rw [List.filterMap_cons, hone, ← horder more hmore]
      cases one <;> rfl

/-! ### The window of the step -/

theorem Memory.drop_readBytes (m : Memory) {a n k : Nat} (h : k ≤ n) :
    (m.readBytes a n).drop k = m.readBytes (a + k) (n - k) := by
  obtain ⟨j, rfl⟩ := Nat.exists_eq_add_of_le h
  rw [Memory.readBytes_add, List.drop_left' (m.length_readBytes a k), Nat.add_sub_cancel_left]

theorem Memory.take_readBytes (m : Memory) (a n k : Nat) : (m.readBytes a n).take k = m.readBytes a (min k n) := by
  rw [Memory.readBytes_eq_map, ← List.map_take, List.take_range, Memory.readBytes_eq_map]

/-- Settles O26: the window is the first five bytes of the rest of the program. -/
theorem windowDecodesAsWholeProgram : Obligations.WindowDecodesAsWholeProgram := by
  intro s hpc
  have hwindow : s.window = (s.mem.readBytes s.pc.toNat (s.codeSize.toNat - s.pc.toNat)).take Config.maxLength :=
    (Memory.take_readBytes _ _ _ _).symm
  rw [decodeOne, Memory.drop_readBytes _ hpc.le, Nat.zero_add, hwindow, decode_take_maxLength]

end Sys2Proof.Machine

/-! SUPPORT AND CERTIFICATES. The step and the run: which instruction a step runs, when it halts, how far `pc` moves, and the
end of a run. -/

namespace Sys2Proof

/-- The range checks of R41 hold of every instruction: each field is a bit vector of its declared width. -/
theorem Instr.wellFormed_eq_true (i : Instr) : i.wellFormed = true := by
  cases i with
  | popcnt b c d e => exact (Laws.FieldsInRange.popcnt b c d e).left
  | loadconst c r => exact (Laws.FieldsInRange.loadconst c r).left
  | readmem a r => exact (Laws.FieldsInRange.readmem a r).left
  | writemem r a => exact (Laws.FieldsInRange.writemem r a).left

/-- The bytes that a decoded instruction takes decode to it by themselves (R46). -/
theorem decode_take {window : List Byte} {i : Instr} {n : Nat} (h : decode window = .instruction i n) :
    decode (window.take n) = .instruction i n := by
  cases window with
  | nil => cases h
  | cons b rest =>
    obtain ⟨-, hfit⟩ := decode_instruction h
    have hn : n = lengthOf (opcodeOf b) := length_of_decode h
    have hpos : n ≠ 0 := by rcases lengthOf_cases (opcodeOf b) with hl | hl <;> omega
    obtain ⟨k, rfl⟩ := Nat.exists_eq_succ_of_ne_zero hpos
    have hlen : (b :: rest.take k).length = lengthOf (opcodeOf b) := by
      rw [← hn, ← List.take_succ_cons, List.length_take, Nat.min_eq_left hfit]
    rw [decode_of_fits (hn ▸ hfit), ← hn] at h
    rw [List.take_succ_cons, decode_of_length_eq hlen, ← List.take_succ_cons, h]

/-- A table word that decodes is one of the decoder's instructions. -/
theorem decodeTableWord_eq_some_iff (nbits w : Nat) (i : Instr) :
    decodeTableWord nbits w = some i ↔ ∃ n, decode (tableBytes nbits w) = .instruction i n := by
  rw [decodeTableWord]
  cases decode (tableBytes nbits w) <;> simp

end Sys2Proof

namespace Sys2Proof.Machine

/-! ### The instruction a step runs -/

/-- Settles O25: the step follows the decoder, whose length is the instruction's. -/
theorem stepRunsDecodedInstruction : Obligations.StepRunsDecodedInstruction := by
  intro s i n hrun _ hcode hdecode
  obtain ⟨-, -, hinstr⟩ := step_of_decode hrun hcode
  obtain ⟨hlen, -⟩ := decoded_fits hdecode
  exact ⟨hinstr i n hdecode, hlen, i.wellFormed_eq_true⟩

/-- Settles O29, by the two statuses that are not Running. -/
theorem endedMachineStaysAsItIs : Obligations.EndedMachineStaysAsItIs := by
  rintro s (hhalted | hfaulted)
  · exact step_ended (by simp [hhalted])
  · exact step_ended (by simp [hfaulted])

/-! ### Where a step halts -/

/-- The end of the code is tested before all else (R60, R78). -/
theorem step_of_end {s : State} (hrun : s.status = .running) (hend : s.codeSize.toNat ≤ s.pc.toNat) :
    step s = .next s.halt := by
  rw [step_running hrun]
  rcases cycle_cases s with ⟨_, hc⟩ | ⟨hlt, _⟩ | ⟨hlt, _⟩
  · exact hc
  · exact absurd hend (Nat.not_le_of_lt hlt)
  · exact absurd hend (Nat.not_le_of_lt hlt)

/-- Before the end of the code the window begins with the byte at `pc`. -/
theorem State.window_eq_cons {s : State} (h : s.pc.toNat < s.codeSize.toNat) :
    ∃ rest, s.window = s.mem.readByte s.pc.toNat :: rest := by
  obtain ⟨k, hk⟩ : ∃ k, min Config.maxLength (s.codeSize.toNat - s.pc.toNat) = k + 1 :=
    Nat.exists_eq_succ_of_ne_zero (by simp only [Config.maxLength]; omega)
  rw [State.window, hk, Memory.readBytes]
  exact ⟨_, rfl⟩

/-- The window is truncated exactly when the opcode's length reaches past the end of the code (R60). -/
theorem decode_window_eq_truncated_iff {s : State} (h : s.pc.toNat < s.codeSize.toNat) :
    decode s.window = .truncated ↔
      s.codeSize.toNat < s.pc.toNat + lengthOf (opcodeOf (s.mem.readByte s.pc.toNat)) := by
  obtain ⟨rest, hwindow⟩ := State.window_eq_cons h
  rw [hwindow, decode_eq_truncated_iff, ← hwindow, length_window]
  rcases lengthOf_cases (opcodeOf (s.mem.readByte s.pc.toNat)) with hl | hl <;> omega

/-- Settles O27: past the end there is no fetch, and an instruction that does not fit is a truncated window. -/
theorem endOfCodeAndTruncationHalt : Obligations.EndOfCodeAndTruncationHalt := by
  refine fun s hrun => ⟨step_of_end hrun, fun hpc hcode hshort => ?_⟩
  rw [← lengthOf_opcodeOf] at hshort
  obtain ⟨htruncated, -, -⟩ := step_of_decode hrun hcode
  exact htruncated ((decode_window_eq_truncated_iff hpc).mpr hshort)

/-! ### How far `pc` moves -/

/-- An instruction inside the code that does not fault moves `pc` past itself, without wrapping (R59). -/
theorem toNat_pc_of_exec {i : Instr} {s t : State} (hfit : s.pc.toNat + i.length ≤ s.codeSize.toNat)
    (h : exec i s = .next t) (ht : t.status = .running) : t.pc.toNat = s.pc.toNat + i.length := by
  rcases exec_cases i s with ⟨addr, kind, _, _, _, he⟩ | ⟨r, v, _, _, he⟩ | ⟨addr, v, _, _, _, he⟩
  · cases he.symm.trans h
    cases ht
  · cases he.symm.trans h
    exact State.toNat_pc_advance (s := s.setReg r v) hfit
  · cases he.symm.trans h
    exact State.toNat_pc_advance (s := s.setMem _) hfit

/-- A machine that is Running before and after a step has run an instruction, and `pc` stands behind it. -/
theorem toNat_pc_of_step {s t : State} (hrun : s.status = .running) (h : step s = .next t) (ht : t.status = .running) :
    ∃ i n, decode s.window = .instruction i n ∧ n = i.length ∧ t.pc.toNat = s.pc.toNat + n := by
  rw [step_running hrun] at h
  rcases cycle_cases s with ⟨_, hc⟩ | ⟨_, _, hc⟩ | ⟨_, _, ⟨_, hc⟩ | ⟨op, _, hc⟩ | ⟨i, n, hd, hc⟩⟩
  · cases hc.symm.trans h
    cases ht
  · cases hc.symm.trans h
  · cases hc.symm.trans h
    cases ht
  · cases hc.symm.trans h
    cases ht
  · obtain ⟨rfl, hfit⟩ := decoded_fits hd
    exact ⟨i, i.length, hd, rfl, toNat_pc_of_exec hfit (hc.symm.trans h) ht⟩

/-- Settles O30: the step that went on ran the instruction the decoder answers, whose length is fixed by its constructor. -/
theorem pcAdvancesByDecodedLength : Obligations.PcAdvancesByDecodedLength := by
  intro s t i n _ hrun _ hdecode hstep ht
  obtain ⟨j, m, hd, rfl, hpc⟩ := toNat_pc_of_step hrun hstep ht
  cases hd.symm.trans hdecode
  exact ⟨hpc, by cases i <;> rfl⟩

/-! ### The end of a run -/

/-- The run from the first state ends after so many steps in the last one: the first that is not Running (R58). -/
inductive EndsAfter : State → Nat → State → Prop
  | ended {s : State} (hend : s.status ≠ .running) : EndsAfter s 0 s
  | goesOn {s t u : State} {k : Nat} (hrun : s.status = .running) (hstep : step s = .next t) (hrest : EndsAfter t k u) :
      EndsAfter s (k + 1) u

theorem runFor_of_ended {s : State} (h : s.status ≠ .running) (k : Nat) : runFor k s = .next s := by
  cases k with
  | zero => rfl
  | succ k => exact if_neg h

theorem runFor_succ_of_step {s t : State} (hrun : s.status = .running) (hstep : step s = .next t) (k : Nat) :
    runFor (k + 1) s = runFor k t := by
  rw [runFor, if_pos hrun, hstep]

theorem EndsAfter.not_running {s t : State} {k : Nat} (h : EndsAfter s k t) : t.status ≠ .running := by
  induction h with
  | ended hend => exact hend
  | goesOn _ _ _ ih => exact ih

theorem EndsAfter.wf {s t : State} {k : Nat} (h : EndsAfter s k t) (hs : s.wf) : t.wf := by
  induction h with
  | ended _ => exact hs
  | goesOn _ hstep _ ih => exact ih (stepKeepsWellFormed _ _ hs hstep)

/-- From its end on, more steps change nothing (R58, R61). -/
theorem EndsAfter.runFor_of_le {s t : State} {k n : Nat} (h : EndsAfter s k t) (hn : k ≤ n) :
    runFor n s = .next t := by
  induction h generalizing n with
  | ended hend => exact runFor_of_ended hend n
  | goesOn hrun hstep _ ih =>
    obtain ⟨m, rfl⟩ := Nat.exists_eq_add_of_le' hn
    exact (runFor_succ_of_step hrun hstep _).trans (ih (Nat.le_add_left _ m))

/-- Before its end the run passes through Running states only. -/
theorem EndsAfter.running_before {s t : State} {k j : Nat} (h : EndsAfter s k t) (hj : j < k) :
    ∃ u, runFor j s = .next u ∧ u.status = .running := by
  induction h generalizing j with
  | ended _ => exact absurd hj (Nat.not_lt_zero j)
  | @goesOn s _ _ _ hrun hstep _ ih =>
    cases j with
    | zero => exact ⟨s, rfl, hrun⟩
    | succ j =>
      rw [runFor_succ_of_step hrun hstep]
      exact ih (Nat.lt_of_succ_lt_succ hj)

/-- The steps a run has left: one more than the 4-byte instructions that fit between `pc` and the end of the code (R64). -/
def State.stepsLeft (s : State) : Nat := (s.codeSize.toNat - s.pc.toNat) / 4 + 1

theorem State.stepsLeft_le_stepBound (s : State) : s.stepsLeft ≤ stepBound s := by
  unfold State.stepsLeft stepBound
  omega

/-- A step after which a well-formed machine still runs has used up one of the steps left. -/
theorem State.stepsLeft_lt_of_step {s t : State} (hs : s.wf) (hrun : s.status = .running) (h : step s = .next t)
    (ht : t.status = .running) : t.stepsLeft < s.stepsLeft := by
  obtain ⟨i, n, _, rfl, hpc⟩ := toNat_pc_of_step hrun h ht
  have hcode : t.codeSize = s.codeSize := stepKeepsCodeSize s t h
  obtain ⟨hle, -⟩ := stepKeepsWellFormed s t hs h
  unfold State.stepsLeft
  rw [hcode] at hle ⊢
  rcases i.length_cases with hl | hl <;> omega

/-- Every run of a well-formed machine ends within its steps left, by induction on them (R64). -/
theorem exists_endsAfter {s : State} (hs : s.wf) : ∃ k t, k ≤ s.stepsLeft ∧ EndsAfter s k t := by
  by_cases hrun : s.status = .running
  · obtain ⟨t, hstep⟩ := wellFormedStepAnswersNext s hs
    by_cases ht : t.status = .running
    · have hlt : t.stepsLeft < s.stepsLeft := State.stepsLeft_lt_of_step hs hrun hstep ht
      obtain ⟨k, u, hk, hends⟩ := exists_endsAfter (stepKeepsWellFormed s t hs hstep)
      exact ⟨k + 1, u, hk.trans_lt hlt, .goesOn hrun hstep hends⟩
    · exact ⟨1, t, Nat.le_add_left 1 _, .goesOn hrun hstep (.ended ht)⟩
  · exact ⟨0, s, Nat.zero_le _, .ended hrun⟩
termination_by s.stepsLeft

/-- Settles O42: the run ends within the steps left, which the bound covers whatever `pc` is. -/
theorem runEndsWithinStepBound : Obligations.RunEndsWithinStepBound := by
  intro s hs
  obtain ⟨k, t, hk, hends⟩ := exists_endsAfter hs
  have hbound : k ≤ stepBound s := hk.trans s.stepsLeft_le_stepBound
  exact ⟨k, t, hbound, hends.runFor_of_le k.le_refl, hends.not_running, hends.wf hs, hends.runFor_of_le hbound,
    fun _ hj => hends.running_before hj⟩

/-! ### The instruction placed at `pc` -/

/-- What the host's hook leaves where the bytes fit into memory: they lie at `pc`, the code takes in the instruction they begin
with, and the machine is Running there (log 23). -/
theorem State.placeAtPc_fits {s : State} {b : Byte} {rest : List Byte} (hlen : (b :: rest).length = 5)
    (hfit : s.pc.toNat + 5 ≤ Config.memSize) (hcode : s.codeSize.toNat ≤ Config.memSize) :
    (s.placeAtPc (b :: rest)).status = .running ∧ (s.placeAtPc (b :: rest)).pc = s.pc ∧
      (s.placeAtPc (b :: rest)).mem = s.mem.writeBytes s.pc.toNat (b :: rest) ∧
      (s.placeAtPc (b :: rest)).codeSize.toNat =
        max s.codeSize.toNat (s.pc.toNat + lengthOf (opcodeOf b)) := by
  have hroom : ¬Config.memSize < s.pc.toNat + (b :: rest).length := by rwa [hlen, Nat.not_lt]
  rw [State.placeAtPc, if_neg hroom]
  refine ⟨rfl, rfl, rfl, Nat.mod_eq_of_lt ?_⟩
  have hmax := lengthOf_le_maxLength (opcodeOf b)
  simp only [Config.memSize, Config.maxLength] at hfit hcode hmax
  omega

/-- Five bytes that begin with an instruction, placed at `pc`, are that instruction's next step. -/
theorem step_placeAtPc {s : State} {bytes : List Byte} {i : Instr} {n : Nat} (hlen : bytes.length = 5)
    (hdecode : decode bytes = .instruction i n) (hfit : s.pc.toNat + 5 ≤ Config.memSize)
    (hcode : s.codeSize.toNat ≤ Config.memSize) : step (s.placeAtPc bytes) = exec i (s.placeAtPc bytes) := by
  cases bytes with
  | nil => cases hdecode
  | cons b rest =>
    obtain ⟨hrun, hpc, hmem, hsize⟩ := State.placeAtPc_fits hlen hfit hcode
    have hn : n = lengthOf (opcodeOf b) := length_of_decode hdecode
    have hn5 : n ≤ 5 := hn.trans_le (lengthOf_le_maxLength _)
    have hbytes : (s.mem.writeBytes s.pc.toNat (b :: rest)).readBytes s.pc.toNat n = (b :: rest).take n := by
      have hall := s.mem.readBytes_writeBytes s.pc.toNat (b :: rest)
      rw [hlen] at hall
      rw [← hall, Memory.take_readBytes, Nat.min_eq_left hn5, hall]
    refine step_of_decode_readBytes (n := n) (k := n) hrun ?_ hn5 ?_ ?_
    · rw [hsize]
      exact max_le hcode (by omega)
    · rw [hsize, hpc, hn]
      exact le_max_right _ _
    · rw [hmem, hpc, hbytes]
      exact decode_take hdecode

/-- Settles O44: the table word's five bytes are placed at `pc`. -/
theorem placedWordIsRunNext : Obligations.PlacedWordIsRunNext := by
  intro s nbits w i hword hfit hcode
  obtain ⟨n, hdecode⟩ := (decodeTableWord_eq_some_iff nbits w i).mp hword
  exact step_placeAtPc (length_toBytes _ _) hdecode hfit hcode

end Sys2Proof.Machine

/-! SUPPORT AND CERTIFICATES. LoadConst: its word, its operand and its effect. -/

namespace Sys2Proof

/-- R48 for LoadConst, with its word written as the sum of its fields at their places (R37). -/
theorem decode_toBytes_loadconst (c : ConstVal) (r : RegNum) :
    decode (toBytes 5 (3 + c.toNat * 2 ^ 3 + r.toNat * 2 ^ 32)) = .instruction (.loadconst c r) 5 := by
  rw [← packWord_loadconst]
  exact decode_encode (.loadconst c r)

end Sys2Proof

namespace Sys2Proof.Machine

/-- Zero extension keeps the number: 29 bits fit into a register (R41). -/
theorem toNat_constantOperand (c : ConstVal) : (constantOperand c).toNat = c.toNat :=
  BitVec.toNat_setWidth_of_le (by decide)

theorem State.reg_setReg_same (s : State) (r : RegNum) (v : Word) : (s.setReg r v).reg r = v := by
  rw [State.reg_setReg, if_pos rfl]

theorem exec_loadconst (c : ConstVal) (r : RegNum) (s : State) :
    exec (.loadconst c r) s = .next ((s.setReg r (constantOperand c)).advance 5) :=
  execLoadconst_eq c r s

/-- Settles O15: LoadConst's one effect is a register write and the advance, and each clause reads one field of the state
they leave. -/
theorem loadconstWritesZeroExtendedConstant : Obligations.LoadconstWritesZeroExtendedConstant := by
  intro c r s
  refine ⟨decode_toBytes_loadconst c r, _, exec_loadconst c r s, ?written, ?others, ?pc, ?mem, ?control⟩
  case written => rw [State.advance_reg, State.reg_setReg_same, toNat_constantOperand]
  case others =>
    intro q hq
    rw [State.advance_reg, State.reg_setReg_of_ne s hq]
  case pc => rw [State.advance_pc, State.setReg_pc]
  case mem =>
    intro a
    rw [State.advance_mem, State.setReg_mem]
  case control => simp [sameControl]

end Sys2Proof.Machine

/-! SUPPORT AND CERTIFICATES. ReadMem and WriteMem: their words, and their effects through `MemRead` and `MemWrite`. -/

namespace Sys2Proof

/-- R48 for ReadMem, with its word written as the sum of its fields at their places (R38). -/
theorem decode_toBytes_readmem (a : MemAddr) (r : RegNum) :
    decode (toBytes 4 (5 + a.toNat * 2 ^ 3 + r.toNat * 2 ^ 20)) = .instruction (.readmem a r) 4 := by
  rw [← packWord_readmem]
  exact decode_encode (.readmem a r)

/-- R48 for WriteMem, with its word written as the sum of its fields at their places (R39). -/
theorem decode_toBytes_writemem (r : RegNum) (a : MemAddr) :
    decode (toBytes 4 (6 + r.toNat * 2 ^ 3 + a.toNat * 2 ^ 9)) = .instruction (.writemem r a) 4 := by
  rw [← packWord_writemem]
  exact decode_encode (.writemem r a)

end Sys2Proof

namespace Sys2Proof.Machine

/-- The `mem_addr` field is the byte address (R41). -/
theorem directAddress_eq_toNat (a : MemAddr) : directAddress a = a.toNat := rfl

/-- ReadMem puts what `MemRead` answers into its register (R66). -/
theorem exec_readmem_of_memRead {a : MemAddr} {s : State} {v : Word} (h : memRead s.mem (directAddress a) = .ok v)
    (r : RegNum) : exec (.readmem a r) s = .next ((s.setReg r v).advance 4) := by
  cases (memRead_inBounds s.mem (directAddress_inBounds a)).symm.trans h
  exact execReadmem_eq a r s

/-- WriteMem leaves the memory that `MemWrite` of its register answers (R67). -/
theorem exec_writemem_of_memWrite {r : RegNum} {a : MemAddr} {s : State} {m' : Memory}
    (h : memWrite s.mem (directAddress a) (s.reg r) = .ok m') :
    exec (.writemem r a) s = .next ((s.setMem m').advance 4) := by
  obtain ⟨-, rfl⟩ := memWrite_ok h
  exact execWritemem_eq r a s

/-- Settles O16: a direct address is in bounds, so the register holds what O11 says `MemRead` answers there, and each
other clause reads a field that the register write and the advance leave. -/
theorem readmemLoadsWord : Obligations.ReadmemLoadsWord := by
  intro a r s
  obtain ⟨-, hinside⟩ := memReadIsBoundedLittleEndian s.mem (directAddress a)
  obtain ⟨v, hread, hsum⟩ := hinside (directAddress_inBounds a)
  refine ⟨decode_toBytes_readmem a r, _, exec_readmem_of_memRead hread r, ?loaded, ?others, ?pc, ?mem, ?control⟩
  case loaded => rw [State.advance_reg, State.reg_setReg_same, hsum, directAddress_eq_toNat]
  case others =>
    intro q hq
    rw [State.advance_reg, State.reg_setReg_of_ne s hq]
  case pc => rw [State.advance_pc, State.setReg_pc]
  case mem =>
    intro b
    rw [State.advance_mem, State.setReg_mem]
  case control => simp [sameControl]

/-- Settles O17: a direct address is in bounds, so the memory left is the one that O12 describes byte by byte, and each
other clause reads a field that the store and the advance leave. -/
theorem writememStoresWord : Obligations.WritememStoresWord := by
  intro r a s
  obtain ⟨-, hinside⟩ := memWriteStoresFourBytes s.mem (directAddress a) (s.reg r)
  obtain ⟨m', hwrite, hstored, hkept⟩ := hinside (directAddress_inBounds a)
  refine ⟨decode_toBytes_writemem r a, _, exec_writemem_of_memWrite hwrite, ?stored, ?kept, directAddress_eq_toNat a,
    ?regs, ?pc, ?control⟩
  case stored =>
    intro k hk
    rw [State.advance_mem, State.setMem_mem, hstored k hk]
  case kept =>
    intro b hb
    rw [State.advance_mem, State.setMem_mem, hkept b hb]
  case regs =>
    intro q
    rw [State.advance_reg, State.setMem_reg]
  case pc => rw [State.advance_pc, State.setMem_pc]
  case control => simp [sameControl]

end Sys2Proof.Machine

/-! SUPPORT AND CERTIFICATES. Popcnt: its word, the word it copies, and its two fault entries. It counts no bits (C4). -/

namespace Sys2Proof

/-- R48 for Popcnt, with its word written as the sum of its fields at their places (R40). -/
theorem decode_toBytes_popcnt (b c : Offset) (d e : RegNum) :
    decode (toBytes 4 (2 + b.toNat * 2 ^ 3 + c.toNat * 2 ^ 10 + d.toNat * 2 ^ 17 + e.toNat * 2 ^ 23)) =
      .instruction (.popcnt b c d e) 4 := by
  rw [← packWord_popcnt]
  exact decode_encode (.popcnt b c d e)

end Sys2Proof

namespace Sys2Proof.Machine

/-! ### The state after the copy -/

theorem State.afterStore_reg (s : State) (dst : Nat) (v : Word) (q : RegNum) :
    (s.afterStore dst v).reg q = s.reg q := rfl

theorem State.afterStore_pc (s : State) (dst : Nat) (v : Word) : (s.afterStore dst v).pc = s.pc + 4#21 := rfl

theorem State.afterStore_sameControl (s : State) (dst : Nat) (v : Word) : sameControl s (s.afterStore dst v) :=
  ⟨rfl, rfl, rfl, rfl⟩

/-- Popcnt stores what `MemRead` answers at its source, where its destination is in bounds (R68). -/
theorem exec_popcnt_of_memRead {b c : Offset} {d e : RegNum} {s : State} {v : Word}
    (hread : memRead s.mem (indirectAddress s d c) = .ok v) (hdst : indirectAddress s e b + 4 ≤ Config.memSize) :
    exec (.popcnt b c d e) s = .next (s.afterStore (indirectAddress s e b) v) :=
  execPopcnt_eq_afterStore hread hdst

/-- Settles O18: the word stored at the destination is the one `MemRead` answered at the source before the store, so the
two agree byte by byte, wherever they overlap. -/
theorem popcntCopiesWord : Obligations.PopcntCopiesWord := by
  refine fun b c d e s => ⟨decode_toBytes_popcnt b c d e, fun hsrc hdst => ?_⟩
  obtain ⟨v, hread, hbytes⟩ := memRead_ok_bytes s.mem hsrc
  refine ⟨_, exec_popcnt_of_memRead hread hdst, rfl, rfl, ?copied, ?kept, s.afterStore_reg _ v, s.afterStore_pc _ v,
    s.afterStore_sameControl _ v⟩
  case copied =>
    intro k hk
    rw [State.afterStore_mem, readByte_storedWord_inside s.mem _ v hk, hbytes k hk]
  case kept =>
    intro a ha
    rw [State.afterStore_mem, readByte_storedWord_outside s.mem v ha]

/-! ### The fault entries -/

/-- A source out of bounds faults on the read, whatever the destination is (R68, D7). -/
theorem exec_popcnt_of_source_outOfBounds {c : Offset} {d : RegNum} {s : State}
    (hsrc : Config.memSize < indirectAddress s d c + 4) (b : Offset) (e : RegNum) :
    exec (.popcnt b c d e) s = .next (s.raise (.memoryBounds (indirectAddress s d c) .read)) := by
  rcases execPopcnt_cases b c d e s with ⟨_, he⟩ | ⟨hin, _, _⟩ | ⟨hin, _, _⟩
  · exact he
  · exact absurd hsrc (Nat.not_lt_of_le hin)
  · exact absurd hsrc (Nat.not_lt_of_le hin)

/-- With the source in bounds, a destination out of bounds faults on the write (R68, D7). -/
theorem exec_popcnt_of_destination_outOfBounds {b c : Offset} {d e : RegNum} {s : State}
    (hsrc : indirectAddress s d c + 4 ≤ Config.memSize) (hdst : Config.memSize < indirectAddress s e b + 4) :
    exec (.popcnt b c d e) s = .next (s.raise (.memoryBounds (indirectAddress s e b) .write)) := by
  rcases execPopcnt_cases b c d e s with ⟨hout, _⟩ | ⟨_, _, he⟩ | ⟨_, hin, _⟩
  · exact absurd hsrc (Nat.not_le_of_lt hout)
  · exact he
  · exact absurd hdst (Nat.not_lt_of_le hin)

/-- Settles O19: each clause is one fault entry, whose record update `raise` writes out. -/
theorem popcntOutOfBoundsFaults : Obligations.PopcntOutOfBoundsFaults :=
  fun b _ _ e _ => ⟨fun hsrc => exec_popcnt_of_source_outOfBounds hsrc b e, exec_popcnt_of_destination_outOfBounds⟩

/-! ### A copy onto itself -/

/-- Storing a word where it was read changes no byte, and so leaves a canonical memory as it is. -/
theorem writeBytes_of_memRead {m : Memory} (hm : m.wf) {addr : Nat} {v : Word} (hread : memRead m addr = .ok v) :
    m.writeBytes addr (toBytes 4 v.toNat) = m := by
  have hin := memRead_ok_inBounds hread
  obtain ⟨w, hw, hbytes⟩ := memRead_ok_bytes m hin
  cases hw.symm.trans hread
  refine canonicalMemoriesEqualByReads _ _ (wf_storedWord hm v hin) hm fun a => ?_
  by_cases ha : addr ≤ a ∧ a < addr + 4
  · obtain ⟨k, rfl⟩ := Nat.exists_eq_add_of_le ha.left
    have hk : k < 4 := by omega
    rw [readByte_storedWord_inside m addr v hk, hbytes k hk]
  · exact readByte_storedWord_outside m v (by omega)

/-- Settles O20: Popcnt stores the word it read at the address it read it from. -/
theorem popcntOntoItselfKeepsMemory : Obligations.PopcntOntoItselfKeepsMemory := by
  intro b c d e s hm hsame hsrc
  obtain ⟨v, hread, -⟩ := memRead_ok_bytes s.mem hsrc
  refine ⟨_, exec_popcnt_of_memRead hread (hsame ▸ hsrc), ?_⟩
  rw [State.afterStore_mem, ← hsame, writeBytes_of_memRead hm hread]

end Sys2Proof.Machine

/-! SUPPORT AND CERTIFICATES. Exceptions and the diagnostic dump: the fault of an illegal opcode, what an ending step leaves as
it was, and the words a dump lists. -/

namespace Sys2Proof.Machine

/-! ### An illegal opcode -/

/-- Four bytes below the end of the code hold an illegal opcode whole: the length of each is 4 (R35, R72). -/
theorem decode_window_of_illegal {s : State} (hfit : s.pc.toNat + 4 ≤ s.codeSize.toNat)
    (h : opcodeOf (s.mem.readByte s.pc.toNat) = 0 ∨ opcodeOf (s.mem.readByte s.pc.toNat) = 1 ∨
      opcodeOf (s.mem.readByte s.pc.toNat) = 4 ∨ opcodeOf (s.mem.readByte s.pc.toNat) = 7) :
    decode s.window = .unknownOpcode (opcodeOf (s.mem.readByte s.pc.toNat)) := by
  obtain ⟨rest, hwindow⟩ := State.window_eq_cons (s := s) (by omega)
  have hlen : lengthOf (opcodeOf (s.mem.readByte s.pc.toNat)) = 4 := by
    rcases h with h | h | h | h <;> rw [h] <;> rfl
  have hroom : 4 ≤ s.window.length := by
    rw [length_window]
    omega
  rw [hwindow, decode_of_fits (hlen.trans_le (hwindow ▸ hroom)), decodeWord_illegal h]

/-- Settles O28: the decoder answers the unknown opcode, and the record update is the fault entry's. -/
theorem illegalOpcodeFaults : Obligations.IllegalOpcodeFaults := by
  intro s hrun hfit hcode hillegal
  obtain ⟨-, hunknown, -⟩ := step_of_decode hrun hcode
  rw [← opcodeOf_eq_ofNat]
  refine hunknown _ (decode_window_of_illegal hfit ?_)
  simp only [opcodeOf_eq_iff]
  exact hillegal

/-! ### Halts and faults -/

/-- Settles O34: the two effects that write a register, the memory or `pc` leave the machine Running. -/
theorem haltsAndFaultsArePrecise : Obligations.HaltsAndFaultsArePrecise := by
  intro s t h ht
  cases stepEffect_of_step h with
  | ended _ => exact ⟨rfl, rfl, rfl, rfl⟩
  | halt _ => exact ⟨s.halt_regs, s.halt_mem, s.halt_pc, s.halt_codeSize⟩
  | fault _ e _ => exact ⟨s.raise_regs e, s.raise_mem e, s.raise_pc e, s.raise_codeSize e⟩
  | writeReg hrun _ _ _ _ => exact absurd hrun ht
  | storeWord hrun _ _ _ _ _ => exact absurd hrun ht

/-! ### The dump -/

theorem memRead_eq_ok_iff (m : Memory) (addr : Nat) (w : Word) :
    memRead m addr = .ok w ↔
      addr + 4 ≤ Config.memSize ∧ BitVec.ofNat 32 (littleEndian (m.readBytes addr 4)) = w := by
  rcases memRead_cases m addr with ⟨hout, hr⟩ | ⟨hin, hr⟩
  · simp [hr, Nat.not_le_of_lt hout]
  · simp [hr, hin]

/-- A listed word stands at an address that passes the dump's tests, with the value of its four bytes (R84). -/
theorem mem_dump_iff (s : State) (lo hi a : Nat) (w : Word) :
    (a, w) ∈ dump s lo hi ↔
      (a < min (hi + 1) Config.memSize ∧ lo ≤ a ∧ a % 4 = 0 ∧ a + 4 ≤ Config.memSize) ∧
        BitVec.ofNat 32 (littleEndian (s.mem.readBytes a 4)) = w := by
  simp [dump, and_assoc]

/-- Settles O43: a word inside memory begins below its end, so the bound of the listing cuts at `hi` alone. -/
theorem dumpListsAlignedWords : Obligations.DumpListsAlignedWords := by
  intro s lo hi a w
  have hbound : a + 4 ≤ Config.memSize → (a < min (hi + 1) Config.memSize ↔ a ≤ hi) := by
    simp only [Config.memSize]
    omega
  rw [mem_dump_iff, memRead_eq_ok_iff]
  constructor
  · rintro ⟨⟨hlt, hlo, halign, hin⟩, hw⟩
    exact ⟨hlo, (hbound hin).mp hlt, halign, hin, hin, hw⟩
  · rintro ⟨hlo, hhi, halign, hin, -, hw⟩
    exact ⟨⟨(hbound hin).mpr hhi, hlo, halign, hin⟩, hw⟩

end Sys2Proof.Machine

/-! SUPPORT AND CERTIFICATES. Reset and load: the registers and memory a run starts from, and the two answers of
`loadProgram`. -/

namespace Sys2Proof.Machine

theorem State.reset_reg (r : RegNum) : State.reset.reg r = 0#32 := Vector.getElem_replicate r.isLt

/-- A program no longer than memory is answered with reset's state around it (R86). -/
theorem loadProgram_of_fits {bytes : List Byte} (h : bytes.length ≤ Config.memSize) :
    loadProgram bytes =
      .ok { State.reset with mem := Memory.ofBytes 0 bytes, codeSize := BitVec.ofNat 21 bytes.length } := by
  rcases loadProgram_cases bytes with ⟨hlong, _⟩ | ⟨_, hl⟩
  · exact absurd h (Nat.not_le_of_lt hlong)
  · exact hl

theorem loadProgram_of_tooLong {bytes : List Byte} (h : Config.memSize < bytes.length) :
    loadProgram bytes = .error .programTooLong := by
  rcases loadProgram_cases bytes with ⟨_, hl⟩ | ⟨hfit, _⟩
  · exact hl
  · exact absurd hfit (Nat.not_le_of_lt h)

/-- `CODE_SIZE` is wide enough for every program that fits: its 21 bits hold 2^20 itself (R13, D9). -/
theorem toNat_codeSize_of_fits {n : Nat} (h : n ≤ Config.memSize) : (BitVec.ofNat 21 n).toNat = n := by
  have hwidth : Config.memSize < 2 ^ 21 := by decide
  rw [BitVec.toNat_ofNat, Nat.mod_eq_of_lt (h.trans_lt hwidth)]

theorem Memory.readByte_ofBytes_zero_inside {bytes : List Byte} {a : Nat} (h : a < bytes.length) :
    (Memory.ofBytes 0 bytes).readByte a = bytes[a] := by
  rw [Memory.readByte_ofBytes, dif_pos ⟨Nat.zero_le a, h⟩]
  rfl

theorem Memory.readByte_ofBytes_zero_above {bytes : List Byte} {a : Nat} (h : bytes.length ≤ a) :
    (Memory.ofBytes 0 bytes).readByte a = Config.unlistedByte := by
  rw [Memory.readByte_ofBytes, dif_neg fun hin => absurd hin.2 (Nat.not_lt_of_le h)]

/-- Settles O36: the one state `loadProgram` answers is that of reset but for `CODE_SIZE`, which the length fits into, and
for memory, which reads as the program and as zero above it. -/
theorem loadLaysProgramOverZeroes : Obligations.LoadLaysProgramOverZeroes := by
  intro bytes
  refine ⟨fun hfit => ⟨_, loadProgram_of_fits hfit, State.reset_reg, rfl, ?codeSize, rfl, rfl, rfl, ?program, ?zeroes⟩,
    loadProgram_of_tooLong⟩
  case codeSize => exact toNat_codeSize_of_fits hfit
  case program => exact fun a h => Memory.readByte_ofBytes_zero_inside h
  case zeroes => exact fun a h => Memory.readByte_ofBytes_zero_above h

/-- Settles O35: an empty memory lists no byte, and it is what the empty program leaves. -/
theorem resetClearsEverything : Obligations.ResetClearsEverything :=
  ⟨State.reset_reg, rfl, rfl, rfl, rfl, rfl, fun _ => rfl, loadProgram_of_fits (Nat.zero_le _)⟩

end Sys2Proof.Machine

/-! SUPPORT AND CERTIFICATES. Words written out by hand: each is what the packer makes of its instruction. -/

namespace Sys2Proof

theorem decode_of_encode_eq {i : Instr} {bytes : List Byte} (h : encode i = bytes) :
    decode bytes = .instruction i i.length :=
  h ▸ decode_encode i

/-- Settles O7: each of the four words is the packed form of its instruction, so the decoder gives that instruction back. -/
theorem writtenWordsDecode : Obligations.WrittenWordsDecode := by
  refine ⟨decode_of_encode_eq ?loadconst, decode_of_encode_eq ?readmem, decode_of_encode_eq ?writemem,
    decode_of_encode_eq ?popcnt⟩
  case loadconst => decide
  case readmem => decide
  case writemem => decide
  case popcnt => decide

end Sys2Proof
